-- ==== Sys2Proof/Word.lean ====
section
/-! DEFINITION. The word types of PAM: a byte of a buffer or of a bus transaction (spec 10 R23), the 32-bit word of CMD and STATUS
(10 R25, R26), an offset of the host window (20 R35: 4096 offsets), and an I2C device address (20 R35: 7 bits). -/

namespace Sys2Proof

abbrev Byte := BitVec 8

abbrev Word := BitVec 32

abbrev Offset := BitVec 12

abbrev DevAddr := BitVec 7

end Sys2Proof
end

