-- ==== Sys2Proof/Config.lean ====
section
/-! DEFINITION. What is fixed for a run of PAM (spec 00 R6 to R15, 10 R33) and the free values the spec leaves open.

A configuration is plain data and stands in State, where no step changes it (log 1), so that a statement about every state holds for every
configuration. The parameters the spec calls OPEN (00 R11) have no value in the reference configuration: they are constants with no body
(log 2). The free values (41 R78, 20 R47) are functions with no body, applied to a counter of State (log 6, log 8). -/

namespace Sys2Proof

/-- The mapper's boundary guard (spec 00 R13, 41 R75). -/
inductive Guard where
  /-- The source's guard: skip when beyond `HEIGHT` or `WIDTH`. -/
  | gt
  /-- The corrected guard: skip when at or beyond `HEIGHT` or `WIDTH`. -/
  | ge
  deriving DecidableEq, Repr, Inhabited

/-- How the guard sees a negative intermediate (spec 00 R14, 41 R74). -/
inductive MapArith where
  | unsigned
  | signed
  deriving DecidableEq, Repr, Inhabited

/-- What a bus transaction that was answered returned (spec 20 R47). -/
inductive BusOutcome where
  | ok
  | fail
  deriving DecidableEq, Repr, Inhabited

/-- The parameters of a model of PAM (spec 00 R6 to R8, R11, R13, R14). -/
structure Config where
  /-- `WIDTH` (R6). -/
  width : Nat
  /-- `HEIGHT` (R7). -/
  height : Nat
  /-- `BUFFER_SIZE` (R8). -/
  bufferSize : Nat
  /-- `DEV_ADDR` (R11). -/
  devAddr : DevAddr
  /-- `REG_CMD`, the page selector (R11). -/
  regCmd : Byte
  /-- `PAGE_FUNCTION` (R11). -/
  pageFunction : Byte
  /-- `REG_MODE` (R11). -/
  regMode : Byte
  /-- `REG_FRAME` (R11). -/
  regFrame : Byte
  /-- `REG_NULL_A` (R11). -/
  regNullA : Byte
  /-- `REG_NULL_B` (R11). -/
  regNullB : Byte
  /-- `REG_IMAGE` (R11). -/
  regImage : Byte
  /-- `GUARD` (R13). -/
  guard : Guard
  /-- `MAP_ARITH` (R14). -/
  arith : MapArith
  deriving DecidableEq, Repr

/-- The number of LBUF cells, `WIDTH*HEIGHT` (spec 00 R7, 10 R21). -/
def Config.logicalSize (c : Config) : Nat := c.width * c.height

/-- `MAX_PAYLOAD` (spec 00 R12). -/
def Config.maxPayload (c : Config) : Nat := c.bufferSize

/-- `ENABLE_LEN` (spec 00 R10). -/
def Config.enableLen (c : Config) : Nat := c.width + 1

/-! The OPEN parameters of spec 00 R11 (92 D7, D8): no value is in the spec, so none is here (log 2). -/

opaque Config.openDevAddr : DevAddr

opaque Config.openRegCmd : Byte

opaque Config.openPageFunction : Byte

opaque Config.openRegMode : Byte

opaque Config.openRegFrame : Byte

opaque Config.openRegNullA : Byte

opaque Config.openRegNullB : Byte

opaque Config.openRegImage : Byte

/-- The reference configuration (spec 00 R6 to R8) with the default switches (R13, R14); log 3. -/
def Config.reference : Config where
  width := 17
  height := 7
  bufferSize := 144
  devAddr := Config.openDevAddr
  regCmd := Config.openRegCmd
  pageFunction := Config.openPageFunction
  regMode := Config.openRegMode
  regFrame := Config.openRegFrame
  regNullA := Config.openRegNullA
  regNullB := Config.openRegNullB
  regImage := Config.openRegImage
  guard := .gt
  arith := .unsigned

/-- FREE VALUE (log 6): the outcome of the bus transaction that the counter numbers, where `busIn` names none (spec 20 R47, 93 I3). -/
opaque Config.busOutcome : Nat → BusOutcome

/-- FREE VALUE (log 8): the byte an out-of-range logical read of slot `j` at source index `idx` returns, the first argument numbering
the read (spec 41 R78 `Draw(j, idx)`, 93 I1). -/
opaque Config.draw : Nat → Nat → Int → Byte

end Sys2Proof
end

