-- ==== Sys2Proof/Syntax.lean ====
section
/-! DEFINITION. The commands of PAM: one constructor per row of spec/opcode_table.json (spec 30 R56). -/

namespace Sys2Proof

/-- A PAM command. -/
inductive Instr where
  /-- `WREG reg, val`: write one controller register (spec 40 R64). -/
  | wreg (reg val : Byte)
  /-- `WBLK reg, N`: send `PBUF[1..N]` as a block write; `len` is the word's LEN field, whose unsigned value is N (spec 40 R65, 30 R55). -/
  | wblk (reg len : Byte)
  /-- `MAP`: map LBUF into `PBUF[1..BUFFER_SIZE]` (spec 41 R69). -/
  | map
  /-- `DRAW`: zero-fill, map and send one frame (spec 42 R84). -/
  | draw
  /-- `INIT`: the fixed initialisation sequence (spec 42 R86). -/
  | init
  deriving DecidableEq, Repr

end Sys2Proof
end

