-- ==== Sys2Proof/WellFormed.lean ====
section
/-! DEFINITION. Which configurations a model takes (spec 00 R15) and which commands a command word can name (30 R55, R57). -/

namespace Sys2Proof

/-- The constraints of spec 00 R15, all of them; a model refuses any other configuration (60 R105). -/
def Config.valid (c : Config) : Bool :=
  decide (1 ≤ c.width) && decide (1 ≤ c.height) && decide (c.width * c.height ≤ 256) &&
  decide (1 ≤ c.bufferSize) && decide (c.bufferSize ≤ 255) && decide (c.enableLen ≤ c.maxPayload)

/-- The legal block lengths, `1 <= N <= MAX_PAYLOAD` (spec 30 R55). -/
def legalLength (c : Config) (len : Byte) : Bool :=
  decide (1 ≤ len.toNat) && decide (len.toNat ≤ c.maxPayload)

/-- A command a legal command word names: only WBLK's length is restricted (spec 30 R55, R57). -/
def Instr.wf (c : Config) : Instr → Bool
  | .wreg _ _ => true
  | .wblk _ len => legalLength c len
  | .map => true
  | .draw => true
  | .init => true

end Sys2Proof
end

