-- ==== Sys2Proof/Decode.lean ====
section
/-! DEFINITION. The command word: its four fields (spec 30 R53), the decoder, total on every word and rejecting by name (R57, R58), and
AFTER it the encoder (R54, R56, R60). The byte lanes of a word are little-endian (20 R39). -/

namespace Sys2Proof

/-- OPC, bits 31:24 (spec 30 R53). -/
def opcField (w : Word) : Byte := w.extractLsb' 24 8

/-- LEN, bits 23:16 (spec 30 R53). -/
def lenField (w : Word) : Byte := w.extractLsb' 16 8

/-- REG, bits 15:8 (spec 30 R53). -/
def regField (w : Word) : Byte := w.extractLsb' 8 8

/-- VAL, bits 7:0 (spec 30 R53). -/
def valField (w : Word) : Byte := w.extractLsb' 0 8

/-- The bits below OPC, 23:0 (spec 30 R58). -/
def operandBits (w : Word) : BitVec 24 := w.extractLsb' 0 24

/-- Why a command word is ILLEGAL: the causes (a), (b) and (c) of spec 30 R57. -/
inductive IllegalWord where
  /-- (a) OPC is 0x00 or in 0x06 to 0xFF. -/
  | reservedOpcode
  /-- (b) A must-be-zero field of the word's format is not zero. -/
  | mustBeZero
  /-- (c) WBLK with N = 0 or N > MAX_PAYLOAD. -/
  | blockLength
  /-- The bytes given are not the four lanes of one word (spec 30 R59: every command is exactly one word). -/
  | notOneWord
  deriving DecidableEq, Repr

/-- The decoder of spec 30 R58, on every word. -/
def decode (c : Config) (w : Word) : Except IllegalWord Instr :=
  if opcField w = 0x01 then
    if lenField w = 0 then .ok (.wreg (regField w) (valField w)) else .error .mustBeZero
  else if opcField w = 0x02 then
    if valField w = 0 then
      if legalLength c (lenField w) then .ok (.wblk (regField w) (lenField w)) else .error .blockLength
    else .error .mustBeZero
  else if opcField w = 0x03 then
    if operandBits w = 0 then .ok .map else .error .mustBeZero
  else if opcField w = 0x04 then
    if operandBits w = 0 then .ok .draw else .error .mustBeZero
  else if opcField w = 0x05 then
    if operandBits w = 0 then .ok .init else .error .mustBeZero
  else .error .reservedOpcode

/-- The word of four byte lanes, lane k holding bits 8k+7 to 8k (spec 20 R39). -/
def wordOfLanes (l0 l1 l2 l3 : Byte) : Word := l3 ++ l2 ++ l1 ++ l0

/-- Byte lane `k` of a word (spec 20 R39). -/
def laneOf (w : Word) (k : Nat) : Byte := w.extractLsb' (8 * k) 8

/-- The decoder on bytes, lowest lane first: four lanes make a word, and no other number of bytes is a command (spec 30 R59). -/
def decodeBytes (c : Config) : List Byte → Except IllegalWord Instr
  | [l0, l1, l2, l3] => decode c (wordOfLanes l0 l1 l2 l3)
  | _ => .error .notOneWord

/-- The word of four fields, OPC in the high bits (spec 30 R53, R60). -/
def wordOfFields (opc len reg val : Byte) : Word := opc ++ len ++ reg ++ val

/-- The word of a command (spec 30 R54, R56, R60). -/
def encode : Instr → Word
  | .wreg reg val => wordOfFields 0x01 0x00 reg val
  | .wblk reg len => wordOfFields 0x02 len reg 0x00
  | .map => wordOfFields 0x03 0x00 0x00 0x00
  | .draw => wordOfFields 0x04 0x00 0x00 0x00
  | .init => wordOfFields 0x05 0x00 0x00 0x00

/-- What the decoder reads from a table row's bits: one word of at most 32 bits, the bits above `nbits` zero, decoded at the reference
configuration (log 14). PAM has no longer command (spec 30 R59). -/
def decodeTableWord (nbits w : Nat) : Option Instr :=
  if nbits ≤ 32 then
    match decode Config.reference (BitVec.ofNat 32 (w % 2 ^ nbits)) with
    | .ok i => some i
    | .error _ => none
  else none

end Sys2Proof
end

