-- ==== Sys2Proof/Machine/State.lean ====
section
/-! DEFINITION. The state of PAM (spec 10 R20 to R34), plain data, with the model's own fields for what comes from outside PAM, and the
state after reset (10 R34, 70 R115). -/

namespace Sys2Proof.Machine

/-- One buffer's cells as (index, byte) pairs, indexes strictly rising; an index that is not listed is an unwritten cell (spec 10 R24;
log 9). -/
abbrev Memory := List Host.Cell

/-- The two byte buffers (spec 10 R21, R22). -/
inductive Buffer where
  /-- The logical pixel buffer. -/
  | lbuf
  /-- The physical scratch buffer. -/
  | pbuf
  deriving DecidableEq, Repr

/-- The values of `STATUS.RESULT` (spec 10 R27); the value 3 is never produced. -/
inductive Result where
  | ok
  | busError
  | illegal
  deriving DecidableEq, Repr

/-- One record of TRACE (spec 10 R28). -/
structure BusRecord where
  addr : DevAddr
  bytes : List Byte
  outcome : BusOutcome
  deriving DecidableEq, Repr

/-- What the bus collaborator does with one transaction: it returns ok or fail (spec 20 R47), or it never answers (20 R46). -/
inductive BusAnswer where
  | ok
  | fail
  | never
  deriving DecidableEq, Repr

/-- What the outside does next: a host access to the window (spec 20 R36; the forms st8, ld8, st32, ld32 are those of 30 R60), or a reset
(70 R115), which comes only between commands (70 R117). -/
inductive HostEvent where
  /-- A byte write. -/
  | st8 (off : Offset) (b : Byte)
  /-- A byte read. -/
  | ld8 (off : Offset)
  /-- A 32-bit write; at 0x200 it writes CMD (spec 10 R25). -/
  | st32 (off : Offset) (w : Word)
  /-- A 32-bit read. -/
  | ld32 (off : Offset)
  /-- A read or write of any width but 8 and 32 bits (log 13). -/
  | otherWidth (off : Offset)
  /-- A reset of PAM. -/
  | reset
  deriving DecidableEq, Repr

/-- The value a host read returned (spec 20 R41). -/
inductive HostReply where
  | byte (b : Byte)
  | word (w : Word)
  deriving DecidableEq, Repr

/-- Why the machine stops with a fault. -/
inductive Fault where
  /-- `F_UNWRITTEN(buffer, index)`, spec 60 R104. Raised by MAP and DRAW (LBUF), WBLK (PBUF) and a host byte read, on reading an unwritten
  cell. SAFE: the spec gives the read no value, and neither does the model. -/
  | unwritten (buffer : Buffer) (index : Nat)
  /-- The bus never answers a transaction, so the command never completes and the host stays stalled: the hang of spec 20 R46 and 60 R93 (c),
  the stuck state of 93 I5. Raised by WREG, WBLK, DRAW and INIT. SAFE: the hardware takes no further step either (log 7). -/
  | busNeverAnswers
  deriving DecidableEq, Repr

/-- Why the model gives an access no meaning (log 17: which of several reasons is named). -/
inductive Refusal where
  /-- An instruction that has no meaning yet. Raised by a refused arm of exec only. SAFE: nothing is claimed of it. -/
  | notModelled (mnemonic : String)
  /-- A host access at a reserved offset (spec 20 R36, R38). Raised by the host window. SAFE (R38: errs toward unprovable). -/
  | reservedOffset (off : Offset)
  /-- A host access to a buffer that is not one byte wide (spec 20 R38). Raised by the host window. SAFE (R38). -/
  | bufferWidth (off : Offset)
  /-- A host access within CMD or STATUS that is not an aligned 32-bit access (spec 20 R38, R40). Raised by the host window. SAFE (R38). -/
  | registerAccess (off : Offset)
  /-- A 32-bit host read of CMD (spec 10 R25, 20 R38). Raised by the host window. SAFE (R38). -/
  | cmdRead
  /-- A configuration outside spec 00 R15 (60 R105). Raised by every step. SAFE (R105: errs toward unprovable). -/
  | configuration
  deriving DecidableEq, Repr

/-- The state of PAM. -/
structure State where
  /-- The configuration, fixed for a run (spec 10 R33; log 1). -/
  cfg : Config
  /-- LBUF (spec 10 R21). -/
  lbuf : Memory
  /-- PBUF (spec 10 R22). -/
  pbuf : Memory
  /-- STATUS (spec 10 R26), read and written through Machine/Flags.lean. -/
  status : Word
  /-- TRACE, oldest record first (spec 10 R28). -/
  trace : List BusRecord
  /-- MODEL'S OWN: what the outside does next, the head first (log 4). -/
  hostIn : List HostEvent
  /-- MODEL'S OWN: the values host reads returned, oldest first (log 5). -/
  hostOut : List HostReply
  /-- MODEL'S OWN: the bus collaborator's coming answers, the head first (log 6). -/
  busIn : List BusAnswer
  /-- MODEL'S OWN: how many transactions were answered, the argument of `Config.busOutcome` (log 6). -/
  busDraws : Nat
  /-- MODEL'S OWN: how many out-of-range reads were made, the first argument of `Config.draw` (log 8). -/
  byteDraws : Nat
  deriving DecidableEq, Repr

/-- PAM right after reset (spec 10 R34, 70 R115): every cell unwritten, STATUS 0, TRACE empty, at the reference configuration; nothing of the
model's own fields set (log 4, 5, 6, 8). -/
def State.reset : State where
  cfg := Config.reference
  lbuf := []
  pbuf := []
  status := 0
  trace := []
  hostIn := []
  hostOut := []
  busIn := []
  busDraws := 0
  byteDraws := 0

end Sys2Proof.Machine
end

