-- ==== Sys2Proof/Machine/Flags.lean ====
section
/-! DEFINITION. The STATUS register (spec 10 R26, R27): RESULT in bits 1:0, OOB in bit 8, every other bit hard-wired to 0 (log 16). PAM has no other
flag (10 R27). -/

namespace Sys2Proof.Machine

/-- The code of a result in `STATUS.RESULT` (spec 10 R27). -/
def Result.code : Result → Word
  | .ok => 0
  | .busError => 1
  | .illegal => 2

/-- The bits of RESULT. -/
def resultMask : Word := 0x00000003

/-- The bit of OOB. -/
def oobMask : Word := 0x00000100

/-- The bits of STATUS that are not reserved (spec 10 R26). -/
def statusMask : Word := 0x00000103

/-- STATUS as it reads: the reserved bits read 0 (spec 10 R26). -/
def State.statusWord (s : State) : Word := s.status &&& statusMask

/-- `STATUS.RESULT` (spec 10 R26). -/
def State.result (s : State) : BitVec 2 := s.status.extractLsb' 0 2

/-- `STATUS.OOB` (spec 10 R26). -/
def State.oob (s : State) : Bool := s.status.getLsbD 8

/-- `STATUS.RESULT <- r`; OOB is kept (spec 10 R27). -/
def State.setResult (s : State) (r : Result) : State :=
  { s with status := (s.status &&& oobMask) ||| r.code }

/-- `STATUS.OOB <- 1`; RESULT is kept (spec 41 R78). -/
def State.setOob (s : State) : State :=
  { s with status := (s.status &&& resultMask) ||| oobMask }

/-- A host write of `v` to STATUS: it clears OOB if `v[8] = 1` and changes nothing else (spec 10 R26). -/
def State.writeStatus (s : State) (v : Word) : State :=
  { s with status := if v.getLsbD 8 then s.status &&& resultMask else s.status &&& statusMask }

end Sys2Proof.Machine
end

