-- ==== Sys2Proof/Machine/Ops.lean ====
section
/-! DEFINITION. The named operations over the buffers and the bus, and how a command ends. Every read and write of a buffer cell, every
bus transaction and every result goes through this file. -/

namespace Sys2Proof.Machine

/-- What a step answers. -/
abbrev Answer := Host.Outcome State Fault Refusal

/-- Go on with the next state, or stop as the first part stopped (spec 60 R106: a stop is final; log 12). -/
def andThen (o : Answer) (k : State → Answer) : Answer :=
  match o with
  | .next s => k s
  | .fault f => .fault f
  | .refused r => .refused r

/-! ## Buffer cells -/

/-- What an index that is not listed reads as: no value, the cell is unwritten (spec 10 R24; log 9). -/
def Memory.unlisted : Option Byte := none

/-- The byte at an index, or none where the cell is unwritten. -/
def Memory.read : Memory → Nat → Option Byte
  | [], _ => Memory.unlisted
  | (k, b) :: rest, i => if k = i then some b else Memory.read rest i

/-- Store a byte, keeping the indexes rising. -/
def Memory.write : Memory → Nat → Byte → Memory
  | [], i, v => [(i, v)]
  | (k, b) :: rest, i, v =>
    if i < k then (i, v) :: (k, b) :: rest
    else if i = k then (i, v) :: rest
    else (k, b) :: Memory.write rest i v

/-- The canonical form: indexes strictly rising. -/
abbrev Memory.wf (m : Memory) : Prop := m.Pairwise (fun x y => x.1 < y.1)

/-- Only cells of a buffer of `n` cells are listed. -/
abbrev Memory.within (m : Memory) (n : Nat) : Prop := ∀ x ∈ m, x.1 < n

/-- Store the same byte in each of the cells listed. -/
def Memory.fill (m : Memory) (v : Byte) : List Nat → Memory
  | [] => m
  | i :: rest => Memory.fill (m.write i v) v rest

/-- The bytes of the cells listed, in order, or the first of them that is unwritten. -/
def Memory.readAll (m : Memory) : List Nat → Except Nat (List Byte)
  | [] => .ok []
  | i :: rest =>
    match m.read i with
    | none => .error i
    | some b =>
      match Memory.readAll m rest with
      | .error k => .error k
      | .ok bs => .ok (b :: bs)

/-- The cells of a buffer. -/
def State.cells (s : State) : Buffer → Memory
  | .lbuf => s.lbuf
  | .pbuf => s.pbuf

/-- `LBUF[i]` or `PBUF[i]` read (spec 00 R18); none where the cell is unwritten. -/
def State.readCell (s : State) (b : Buffer) (i : Nat) : Option Byte := (s.cells b).read i

/-- `LBUF[i] <- v` or `PBUF[i] <- v` (spec 00 R18); the cell becomes written (10 R24). -/
def State.writeCell (s : State) (b : Buffer) (i : Nat) (v : Byte) : State :=
  match b with
  | .lbuf => { s with lbuf := s.lbuf.write i v }
  | .pbuf => { s with pbuf := s.pbuf.write i v }

/-! ## The bus -/

/-- The outcome the bus collaborator gives the next transaction, where it answers: the head of `busIn`, or the free value where `busIn` names
none (spec 20 R47; log 6). `transact` stops on a head of `never` before it asks. -/
def State.nextOutcome (s : State) : BusOutcome :=
  match s.busIn with
  | .ok :: _ => .ok
  | .fail :: _ => .fail
  | .never :: _ => Config.busOutcome s.busDraws
  | [] => Config.busOutcome s.busDraws

/-- What one answered transaction leaves: exactly one record of TRACE, whatever its outcome (spec 10 R28, 20 R47). -/
def State.record (s : State) (bytes : List Byte) : State :=
  { s with
    trace := s.trace ++ [⟨s.cfg.devAddr, bytes, s.nextOutcome⟩]
    busIn := s.busIn.tail
    busDraws := s.busDraws + 1 }

/-- The command's end after its last transaction (spec 10 R27). -/
def Result.ofOutcome : BusOutcome → Result
  | .ok => .ok
  | .fail => .busError

/-- Issue the transactions in order, stopping at the first that fails, and write RESULT (spec 20 R47, 42 R88, 60 R95, R101). None is
retried (40 R63). -/
def State.sendAll : List (List Byte) → State → State
  | [], s => s.setResult .ok
  | bytes :: rest, s =>
    match s.nextOutcome with
    | .ok => State.sendAll rest (s.record bytes)
    | .fail => (s.record bytes).setResult (Result.ofOutcome .fail)

/-- Of at most `n` transactions that stop at the first fail, the bus leaves one unanswered: among its first `n` answers the first that is
not ok is `never` (spec 20 R46; log 7). -/
def State.busStalls (s : State) (n : Nat) : Bool :=
  (s.busIn.take n).find? (fun a => a != .ok) == some .never

/-- The transactions of one command, and its end: RESULT is written once, last (spec 10 R27, 20 R45); where the bus never answers one of
them, the command never completes (20 R46). -/
def transact (txs : List (List Byte)) (s : State) : Answer :=
  if s.busStalls txs.length then .fault .busNeverAnswers else .next (State.sendAll txs s)

/-! ## Other ends of a command -/

/-- `raise ILLEGAL`: only RESULT changes (spec 60 R96, R98). PAM takes no trap: this is the whole of its exception entry (60 R103). -/
def raiseIllegal (s : State) : Answer := .next (s.setResult .illegal)

/-- A command without a transaction completes with OK (spec 41 R80). -/
def complete (s : State) : Answer := .next (s.setResult .ok)

/-- Reset: buffers unwritten, STATUS 0, TRACE empty, no transaction (spec 70 R115, R116). What belongs to the outside is not touched
(log 10). -/
def State.resetBlock (s : State) : State :=
  { s with lbuf := [], pbuf := [], status := 0, trace := [] }

/-- A host read returns a value (spec 20 R41). -/
def State.reply (s : State) (r : HostReply) : State := { s with hostOut := s.hostOut ++ [r] }

end Sys2Proof.Machine
end

