-- ==== Sys2Proof/Machine/Mapper.lean ====
section
/-! DEFINITION. The pixel mapper (spec 41): the slot function (R70 to R76), the slot loop (R71, R77 to R79) and MAP (R69). -/

namespace Sys2Proof.Machine

/-- The verdict on one slot (spec 41 R70). -/
inductive Slot where
  /-- The slot is not written (R79). -/
  | skip
  /-- The slot copies `LBUF[idx]` (R77). -/
  | read (idx : Nat)
  /-- The slot reads outside LBUF, at source index `idx` (R78). -/
  | oob (idx : Int)
  deriving DecidableEq, Repr

/-- `ROWS_PER_COL` (spec 00 R9). -/
def rowsPerCol : Nat := 8

/-- `col` of a slot (spec 41 R72). -/
def slotCol (j : Nat) : Nat := j / rowsPerCol

/-- `row` of a slot (spec 41 R72). -/
def slotRow (j : Nat) : Nat := j % rowsPerCol

/-- `fast`, in Int; both divisions truncate (spec 41 R73, 00 R17). -/
def slotFast (c : Config) (j : Nat) : Int :=
  let half : Int := ((c.width / 2 : Nat) : Int)
  let k : Int := ((slotCol j / 2 : Nat) : Int)
  if slotCol j % 2 = 1 then half - k - 1 else half + k

/-- `slow`, in Int (spec 41 R73). -/
def slotSlow (c : Config) (j : Nat) : Int :=
  let row : Int := (slotRow j : Int)
  if slotCol j % 2 = 1 then (c.height : Int) - row - 1 else row

/-- What the guard sees of an intermediate value (spec 41 R74). -/
def view (a : MapArith) (x : Int) : Int :=
  match a with
  | .unsigned => x % 2 ^ 32
  | .signed => x

/-- `guard_skips(F, S)` (spec 41 R75). -/
def guardSkips (c : Config) (f s : Int) : Bool :=
  match c.guard with
  | .gt => decide (s > (c.height : Int)) || decide (f > (c.width : Int))
  | .ge => decide (s ≥ (c.height : Int)) || decide (f ≥ (c.width : Int))

/-- `idx = fast + slow*WIDTH`, in Int (spec 41 R76). -/
def slotIdx (c : Config) (j : Nat) : Int := slotFast c j + slotSlow c j * (c.width : Int)

/-- `slot(j)` (spec 41 R70). -/
def slot (c : Config) (j : Nat) : Slot :=
  if guardSkips c (view c.arith (slotFast c j)) (view c.arith (slotSlow c j)) then .skip
  else
    let idx := slotIdx c j
    if 0 ≤ idx ∧ idx < (c.logicalSize : Int) then .read idx.toNat else .oob idx

/-- An out-of-range read: the slot receives a free byte and STATUS.OOB is set (spec 41 R78; log 8). -/
def State.oobRead (s : State) (j : Nat) (idx : Int) : State :=
  { (s.writeCell .pbuf (1 + j) (Config.draw s.byteDraws j idx)).setOob with byteDraws := s.byteDraws + 1 }

/-- What one slot does (spec 41 R69). -/
def mapSlot (j : Nat) (s : State) : Answer :=
  match slot s.cfg j with
  | .skip => .next s
  | .read idx =>
    match s.readCell .lbuf idx with
    | none => .fault (.unwritten .lbuf idx)
    | some b => .next (s.writeCell .pbuf (1 + j) b)
  | .oob idx => .next (s.oobRead j idx)

/-- The slots listed, in order; a fault ends the loop (spec 41 R71, 60 R102). -/
def mapSlots : List Nat → State → Answer
  | [], s => .next s
  | j :: rest, s => andThen (mapSlot j s) (mapSlots rest)

/-- The slot loop, `j = 0 .. BUFFER_SIZE-1` (spec 41 R71). -/
def mapAll (s : State) : Answer := mapSlots (List.range s.cfg.bufferSize) s

/-- MAP (spec 41 R69, R80). -/
def execMap (s : State) : Answer := andThen (mapAll s) complete

end Sys2Proof.Machine
end

