-- ==== Sys2Proof/Machine/Operands.lean ====
section
/-! DEFINITION. Where the commands' operands come from: the payload of a block write (spec 40 R65) and the frame of DRAW (42 R84). The
operands in the word itself are used as they are (30 R55). -/

namespace Sys2Proof.Machine

/-- The PBUF cells of a payload of `n` bytes: 1 to n (spec 10 R22). -/
def payloadCells (n : Nat) : List Nat := List.range' 1 n

/-- Take the payload `PBUF[1..n]`, or fault at its first unwritten cell, before any bus activity (spec 40 R65, 60 R102). -/
def withPayload (n : Nat) (s : State) (k : List Byte → Answer) : Answer :=
  match s.pbuf.readAll (payloadCells n) with
  | .error i => .fault (.unwritten .pbuf i)
  | .ok bs => k bs

end Sys2Proof.Machine
end

