-- ==== Sys2Proof/Machine/Transport.lean ====
section
/-! DEFINITION. The register transport commands (spec 40 R63 to R67). -/

namespace Sys2Proof.Machine

/-- WREG (spec 40 R64): one transaction of exactly two bytes. -/
def execWreg (reg val : Byte) (s : State) : Answer := transact [[reg, val]] s

/-- The block write of `n` payload bytes to `reg` (spec 40 R65): the payload is checked first, `PBUF[0] <- reg`, one transaction. -/
def blockWrite (reg : Byte) (n : Nat) (s : State) : Answer :=
  withPayload n s (fun payload => transact [reg :: payload] (s.writeCell .pbuf 0 reg))

/-- WBLK (spec 40 R65). A length that no legal word names is ILLEGAL (30 R57 (c); log 11). -/
def execWblk (reg len : Byte) (s : State) : Answer :=
  if legalLength s.cfg len then blockWrite reg len.toNat s else raiseIllegal s

end Sys2Proof.Machine
end

