-- ==== Sys2Proof/Machine/Wire.lean ====
section
/-! DEFINITION. The wire constants whose value the spec gives (spec 00 R10, R11) and the byte lists of INIT (42 R87). -/

namespace Sys2Proof.Machine

/-- `PAGE_FRAME0` (spec 00 R11). -/
def pageFrame0 : Byte := 0x00

/-- `REG_SHUTDOWN` (spec 00 R11). -/
def regShutdown : Byte := 0x0a

/-- `SHUTDOWN_RUN` (spec 00 R11). -/
def shutdownRun : Byte := 0x01

/-- `ENABLE_BYTE` (spec 00 R10). -/
def enableByte : Byte := 0x7f

/-- `REG_ENABLE`, the target of the enable array, equal to `REG_MODE` (spec 00 R11, 92 D8). -/
def regEnable (c : Config) : Byte := c.regMode

/-- The nine transactions of INIT, in order (spec 42 R87). -/
def initSequence (c : Config) : List (List Byte) :=
  [ [c.regCmd, c.pageFunction],
    [c.regMode, 0x00],
    [c.regFrame, 0x00],
    [c.regNullA, 0x00],
    [c.regNullB, 0x00],
    [regShutdown, shutdownRun],
    [c.regCmd, pageFrame0],
    regEnable c :: List.replicate c.enableLen enableByte,
    [c.regCmd, pageFrame0] ]

end Sys2Proof.Machine
end

