-- ==== Sys2Proof/Machine/Sequencer.lean ====
section
/-! DEFINITION. Frame and initialisation sequencing (spec 42): DRAW (R83 to R85) and INIT (R86 to R89). -/

namespace Sys2Proof.Machine

/-- A fresh scratch buffer: `PBUF[1..BUFFER_SIZE] <- 0x00` (spec 42 R84, 92 D6). -/
def State.clearPayload (s : State) : State :=
  { s with pbuf := s.pbuf.fill 0x00 (payloadCells s.cfg.bufferSize) }

/-- The end of DRAW: `PBUF[0] <- REG_IMAGE`, then the whole of PBUF in one transaction (spec 42 R84, R85). -/
def sendFrame (s : State) : Answer := blockWrite s.cfg.regImage s.cfg.bufferSize s

/-- DRAW (spec 42 R84): zero-fill, map, send. -/
def execDraw (s : State) : Answer := andThen (mapAll s.clearPayload) sendFrame

/-- INIT (spec 42 R86 to R88): the nine transactions, stopping at the first that fails. -/
def execInit (s : State) : Answer := transact (initSequence s.cfg) s

end Sys2Proof.Machine
end

