-- ==== Sys2Proof/Machine/Dispatch.lean ====
section
/-! DEFINITION. exec: one arm per command (spec 30 R56). -/

namespace Sys2Proof.Machine

def exec (i : Instr) (s : State) : Host.Outcome State Fault Refusal :=
  match i with
  | .wreg reg val => Sys2Proof.Machine.execWreg reg val s
  | .wblk reg len => Sys2Proof.Machine.execWblk reg len s
  | .map => Sys2Proof.Machine.execMap s
  | .draw => Sys2Proof.Machine.execDraw s
  | .init => Sys2Proof.Machine.execInit s

end Sys2Proof.Machine
end

