-- ==== Sys2Proof/Machine/Window.lean ====
section
/-! DEFINITION. The host window (spec 20 R35 to R42) and one turn of the machine: the next host access or reset (10 R25, 20 R45, 70 R117). -/

namespace Sys2Proof.Machine

/-- What an offset of the host window holds (spec 20 R36). -/
inductive Region where
  /-- LBUF cell `i`. -/
  | lbuf (i : Nat)
  /-- PBUF cell `i`. -/
  | pbuf (i : Nat)
  /-- Byte `k` of CMD. -/
  | cmd (k : Nat)
  /-- Byte `k` of STATUS. -/
  | status (k : Nat)
  /-- Nothing. -/
  | reserved
  deriving DecidableEq, Repr

/-- The host window map (spec 20 R36). -/
def region (c : Config) (off : Offset) : Region :=
  let a := off.toNat
  if a < 0x100 then
    if a < c.logicalSize then .lbuf a else .reserved
  else if a < 0x200 then
    if a - 0x100 ≤ c.bufferSize then .pbuf (a - 0x100) else .reserved
  else if a < 0x204 then .cmd (a - 0x200)
  else if a < 0x208 then .status (a - 0x204)
  else .reserved

/-- The offset of CMD (spec 20 R36). -/
def cmdOffset : Offset := 0x200

/-- The offset of STATUS (spec 20 R36). -/
def statusOffset : Offset := 0x204

/-- A host write of `w` to CMD: decode, then run the command to completion; a word that is no command is ILLEGAL (spec 10 R25, 60 R96,
R100). -/
def writeCmd (w : Word) (s : State) : Answer :=
  match decode s.cfg w with
  | .ok i => exec i s
  | .error _ => raiseIllegal s

/-- A host byte write (spec 20 R37, R38). -/
def hostSt8 (off : Offset) (b : Byte) (s : State) : Answer :=
  match region s.cfg off with
  | .lbuf i => .next (s.writeCell .lbuf i b)
  | .pbuf i => .next (s.writeCell .pbuf i b)
  | .cmd _ => .refused (.registerAccess off)
  | .status _ => .refused (.registerAccess off)
  | .reserved => .refused (.reservedOffset off)

/-- A buffer cell read by the host (spec 20 R37): an unwritten one faults (60 R104). -/
def hostReadCell (b : Buffer) (i : Nat) (s : State) : Answer :=
  match s.readCell b i with
  | some v => .next (s.reply (.byte v))
  | none => .fault (.unwritten b i)

/-- A host byte read (spec 20 R37, R38). -/
def hostLd8 (off : Offset) (s : State) : Answer :=
  match region s.cfg off with
  | .lbuf i => hostReadCell .lbuf i s
  | .pbuf i => hostReadCell .pbuf i s
  | .cmd _ => .refused (.registerAccess off)
  | .status _ => .refused (.registerAccess off)
  | .reserved => .refused (.reservedOffset off)

/-- A host 32-bit write: CMD at 0x200, STATUS at 0x204 (spec 20 R36, R38, R40). -/
def hostSt32 (off : Offset) (w : Word) (s : State) : Answer :=
  match region s.cfg off with
  | .lbuf _ => .refused (.bufferWidth off)
  | .pbuf _ => .refused (.bufferWidth off)
  | .cmd k => if k = 0 then writeCmd w s else .refused (.registerAccess off)
  | .status k => if k = 0 then .next (s.writeStatus w) else .refused (.registerAccess off)
  | .reserved => .refused (.reservedOffset off)

/-- A host 32-bit read: STATUS at 0x204; a read of CMD has no meaning (spec 10 R25, 20 R36, R38, R40). -/
def hostLd32 (off : Offset) (s : State) : Answer :=
  match region s.cfg off with
  | .lbuf _ => .refused (.bufferWidth off)
  | .pbuf _ => .refused (.bufferWidth off)
  | .cmd k => if k = 0 then .refused .cmdRead else .refused (.registerAccess off)
  | .status k => if k = 0 then .next (s.reply (.word s.statusWord)) else .refused (.registerAccess off)
  | .reserved => .refused (.reservedOffset off)

/-- An access of any other width: no region takes it (spec 20 R38). -/
def hostOtherWidth (off : Offset) (s : State) : Answer :=
  match region s.cfg off with
  | .lbuf _ => .refused (.bufferWidth off)
  | .pbuf _ => .refused (.bufferWidth off)
  | .cmd _ => .refused (.registerAccess off)
  | .status _ => .refused (.registerAccess off)
  | .reserved => .refused (.reservedOffset off)

/-- One event of the outside (spec 20 R36, 70 R115). -/
def hostEvent (e : HostEvent) (s : State) : Answer :=
  match e with
  | .st8 off b => hostSt8 off b s
  | .ld8 off => hostLd8 off s
  | .st32 off w => hostSt32 off w s
  | .ld32 off => hostLd32 off s
  | .otherWidth off => hostOtherWidth off s
  | .reset => .next s.resetBlock

/-- One turn: a configuration outside spec 00 R15 is refused (60 R105); else the next event of the outside, and where there is none PAM is
idle with all state kept (60 R114). -/
def turn (s : State) : Answer :=
  if s.cfg.valid then
    match s.hostIn with
    | [] => .next s
    | e :: rest => hostEvent e { s with hostIn := rest }
  else .refused .configuration

/-- The state whose next turn writes the command word with bits `w` to CMD; bits at and above `nbits` are 0 (log 4, log 14). -/
def placeCommand (s : State) (nbits w : Nat) : State :=
  { s with hostIn := .st32 cmdOffset (BitVec.ofNat 32 (w % 2 ^ nbits)) :: s.hostIn }

end Sys2Proof.Machine
end

