-- ==== Sys2Proof/Machine/Step.lean ====
section
/-! DEFINITION. One step of the machine: one host access or reset, run to its end (spec 20 R41, R45). PAM fetches no instructions (20 R51):
the next command is the next word the host writes to CMD (log 4). -/

namespace Sys2Proof.Machine

/-- One step. -/
def step (s : State) : Host.Outcome State Fault Refusal := turn s

/-- `s` with the instruction whose bits are `w` as the next word the host writes to CMD. -/
def State.withFetchWord (s : State) (nbits w : Nat) : State := placeCommand s nbits w

end Sys2Proof.Machine
end

