-- ==== Sys2Proof/Machine/Assembler.lean ====
section
/-! DEFINITION. The assembly text of host programs (spec 30 R60) and its pseudo-instructions (R61): a line becomes the host access it
stands for. It is no part of the machine: it makes the contents of `hostIn`. -/

namespace Sys2Proof.Machine

/-- The parameter names of spec 00 R11. -/
inductive Param where
  | devAddr
  | regCmd
  | pageFunction
  | pageFrame0
  | regMode
  | regFrame
  | regNullA
  | regNullB
  | regShutdown
  | shutdownRun
  | regImage
  | regEnable
  deriving DecidableEq, Repr

/-- An operand: a number, or a parameter name standing for its configured value (spec 30 R60). -/
inductive Operand where
  | num (n : Nat)
  | param (p : Param)
  deriving DecidableEq, Repr

/-- A line: a command, a pseudo-instruction (spec 30 R61) or a host access (R60). -/
inductive AsmLine where
  | wreg (reg val : Operand)
  | wblk (reg len : Operand)
  | map
  | draw
  | init
  | selpage (p : Operand)
  | zero (reg : Operand)
  | run
  | st8 (off b : Operand)
  | ld8 (off : Operand)
  | st32 (off w : Operand)
  | ld32 (off : Operand)
  deriving DecidableEq, Repr

/-- The configured value a parameter name stands for (spec 00 R11). -/
def Param.value (c : Config) : Param → Nat
  | .devAddr => c.devAddr.toNat
  | .regCmd => c.regCmd.toNat
  | .pageFunction => c.pageFunction.toNat
  | .pageFrame0 => Sys2Proof.Machine.pageFrame0.toNat
  | .regMode => c.regMode.toNat
  | .regFrame => c.regFrame.toNat
  | .regNullA => c.regNullA.toNat
  | .regNullB => c.regNullB.toNat
  | .regShutdown => Sys2Proof.Machine.regShutdown.toNat
  | .shutdownRun => Sys2Proof.Machine.shutdownRun.toNat
  | .regImage => c.regImage.toNat
  | .regEnable => (Sys2Proof.Machine.regEnable c).toNat

/-- An operand's number. -/
def Operand.value (c : Config) : Operand → Nat
  | .num n => n
  | .param p => p.value c

/-- An operand as a field of `w` bits; refused where it does not fit (spec 30 R60). -/
def Operand.field (c : Config) (w : Nat) (o : Operand) : Option (BitVec w) :=
  if o.value c < 2 ^ w then some (BitVec.ofNat w (o.value c)) else none

/-- `wreg` with operands that fit (spec 30 R60). -/
def assembleWreg (c : Config) (reg val : Operand) : Option Instr :=
  match reg.field c 8, val.field c 8 with
  | some r, some v => some (.wreg r v)
  | _, _ => none

/-- `wblk` with a register that fits and N in 1..MAX_PAYLOAD (spec 30 R60). -/
def assembleWblk (c : Config) (reg len : Operand) : Option Instr :=
  match reg.field c 8, len.field c 8 with
  | some r, some n => if legalLength c n then some (.wblk r n) else none
  | _, _ => none

/-- A command line `m` means `st32 0x200, <word of m>` (spec 30 R60). -/
def writesCommand (i : Option Instr) : Option HostEvent := i.map (fun i => .st32 cmdOffset (encode i))

/-- The host access a line stands for, or none where the assembler refuses it (spec 30 R60, R61). -/
def assemble (c : Config) : AsmLine → Option HostEvent
  | .wreg reg val => writesCommand (assembleWreg c reg val)
  | .wblk reg len => writesCommand (assembleWblk c reg len)
  | .map => writesCommand (some .map)
  | .draw => writesCommand (some .draw)
  | .init => writesCommand (some .init)
  | .selpage p => writesCommand (assembleWreg c (.param .regCmd) p)
  | .zero reg => writesCommand (assembleWreg c reg (.num 0))
  | .run => writesCommand (assembleWreg c (.param .regShutdown) (.param .shutdownRun))
  | .st8 off b =>
    match off.field c 12, b.field c 8 with
    | some o, some v => some (.st8 o v)
    | _, _ => none
  | .ld8 off => (off.field c 12).map .ld8
  | .st32 off w =>
    match off.field c 12, w.field c 32 with
    | some o, some v => some (.st32 o v)
    | _, _ => none
  | .ld32 off => (off.field c 12).map .ld32

/-- A program: the host accesses of its lines, or none where one line is refused. -/
def assembleAll (c : Config) : List AsmLine → Option (List HostEvent)
  | [] => some []
  | l :: rest =>
    match assemble c l, assembleAll c rest with
    | some e, some es => some (e :: es)
    | _, _ => none

/-! ## Reading a line of text (spec 30 R60; log 15) -/

/-- `;` starts a comment. -/
def stripComment (t : List Char) : List Char := t.takeWhile (· != ';')

def isBlank (ch : Char) : Bool := ch == ' ' || ch == '\t'

def trimBlanks (t : List Char) : List Char := ((t.dropWhile isBlank).reverse.dropWhile isBlank).reverse

/-- The pieces between commas. -/
def splitCommas : List Char → List (List Char)
  | [] => [[]]
  | ch :: rest =>
    if ch == ',' then [] :: splitCommas rest
    else
      match splitCommas rest with
      | [] => [[ch]]
      | p :: ps => (ch :: p) :: ps

/-- The value of a digit in base 16. -/
def digitValue (ch : Char) : Option Nat :=
  if '0'.toNat ≤ ch.toNat ∧ ch.toNat ≤ '9'.toNat then some (ch.toNat - '0'.toNat)
  else if 'a'.toNat ≤ ch.toNat ∧ ch.toNat ≤ 'f'.toNat then some (ch.toNat - 'a'.toNat + 10)
  else if 'A'.toNat ≤ ch.toNat ∧ ch.toNat ≤ 'F'.toNat then some (ch.toNat - 'A'.toNat + 10)
  else none

/-- A number in the base given, most significant digit first. -/
def readDigits (base : Nat) : Nat → List Char → Option Nat
  | acc, [] => some acc
  | acc, ch :: rest =>
    match digitValue ch with
    | some d => if d < base then readDigits base (acc * base + d) rest else none
    | none => none

/-- A decimal number, or a hex number after `0x`. -/
def readNumber : List Char → Option Nat
  | [] => none
  | ['0', 'x'] => none
  | '0' :: 'x' :: rest => readDigits 16 0 rest
  | t => readDigits 10 0 t

/-- The parameter names as the text spells them (spec 00 R11). -/
def paramNames : List (List Char × Param) :=
  [ (['D', 'E', 'V', '_', 'A', 'D', 'D', 'R'], .devAddr),
    (['R', 'E', 'G', '_', 'C', 'M', 'D'], .regCmd),
    (['P', 'A', 'G', 'E', '_', 'F', 'U', 'N', 'C', 'T', 'I', 'O', 'N'], .pageFunction),
    (['P', 'A', 'G', 'E', '_', 'F', 'R', 'A', 'M', 'E', '0'], .pageFrame0),
    (['R', 'E', 'G', '_', 'M', 'O', 'D', 'E'], .regMode),
    (['R', 'E', 'G', '_', 'F', 'R', 'A', 'M', 'E'], .regFrame),
    (['R', 'E', 'G', '_', 'N', 'U', 'L', 'L', '_', 'A'], .regNullA),
    (['R', 'E', 'G', '_', 'N', 'U', 'L', 'L', '_', 'B'], .regNullB),
    (['R', 'E', 'G', '_', 'S', 'H', 'U', 'T', 'D', 'O', 'W', 'N'], .regShutdown),
    (['S', 'H', 'U', 'T', 'D', 'O', 'W', 'N', '_', 'R', 'U', 'N'], .shutdownRun),
    (['R', 'E', 'G', '_', 'I', 'M', 'A', 'G', 'E'], .regImage),
    (['R', 'E', 'G', '_', 'E', 'N', 'A', 'B', 'L', 'E'], .regEnable) ]

/-- One operand. -/
def readOperand (t : List Char) : Option Operand :=
  match paramNames.lookup t with
  | some p => some (.param p)
  | none => (readNumber t).map .num

/-- The operands after a mnemonic, separated by commas. -/
def readOperands (t : List Char) : Option (List Operand) :=
  if t.isEmpty then some [] else (splitCommas t).mapM (fun p => readOperand (trimBlanks p))

/-- A line of a mnemonic and its operands; none where there is no such line. -/
def makeLine (m : List Char) (ops : List Operand) : Option AsmLine :=
  match m, ops with
  | ['w', 'r', 'e', 'g'], [a, b] => some (.wreg a b)
  | ['w', 'b', 'l', 'k'], [a, b] => some (.wblk a b)
  | ['m', 'a', 'p'], [] => some .map
  | ['d', 'r', 'a', 'w'], [] => some .draw
  | ['i', 'n', 'i', 't'], [] => some .init
  | ['s', 'e', 'l', 'p', 'a', 'g', 'e'], [a] => some (.selpage a)
  | ['z', 'e', 'r', 'o'], [a] => some (.zero a)
  | ['r', 'u', 'n'], [] => some .run
  | ['s', 't', '8'], [a, b] => some (.st8 a b)
  | ['l', 'd', '8'], [a] => some (.ld8 a)
  | ['s', 't', '3', '2'], [a, b] => some (.st32 a b)
  | ['l', 'd', '3', '2'], [a] => some (.ld32 a)
  | _, _ => none

/-- What a line of text holds. -/
inductive TextLine where
  /-- Nothing but blanks or a comment. -/
  | empty
  | code (l : AsmLine)
  /-- Not a line of the assembler. -/
  | bad
  deriving DecidableEq, Repr

/-- Read one line of text: mnemonic first, operands separated by commas (spec 30 R60). -/
def readLine (t : List Char) : TextLine :=
  let body := trimBlanks (stripComment t)
  if body.isEmpty then .empty
  else
    let mnemonic := body.takeWhile (fun ch => !isBlank ch)
    match readOperands (trimBlanks (body.dropWhile (fun ch => !isBlank ch))) with
    | none => .bad
    | some ops =>
      match makeLine mnemonic ops with
      | some l => .code l
      | none => .bad

end Sys2Proof.Machine
end

