-- ==== Sys2Proof/Machine/Page.lean ====
section
/-! DEFINITION. The controller page a trace leaves, `ctl_page(TRACE)` (spec 10 R29): a function claims may use, not state. -/

namespace Sys2Proof.Machine

/-- The record writes the page selector, whatever its length and outcome (spec 10 R29). -/
def BusRecord.touchesPage (c : Config) (r : BusRecord) : Bool := r.bytes.head? == some c.regCmd

/-- The page a record that touches the selector leaves: known only after a 2-byte write to DEV_ADDR that returned ok (spec 10 R29). -/
def BusRecord.pageSet (c : Config) (r : BusRecord) : Option Byte :=
  match r.bytes with
  | [reg, p] => if reg = c.regCmd ∧ r.addr = c.devAddr ∧ r.outcome = .ok then some p else none
  | _ => none

/-- The page after one more record. -/
def pageAfter (c : Config) (page : Option Byte) (r : BusRecord) : Option Byte :=
  if r.touchesPage c then r.pageSet c else page

/-- `ctl_page(TRACE)`; none is UNKNOWN (spec 10 R29). -/
def ctlPage (c : Config) (trace : List BusRecord) : Option Byte := trace.foldl (pageAfter c) none

/-- The page the state's trace leaves. -/
def State.page (s : State) : Option Byte := ctlPage s.cfg s.trace

end Sys2Proof.Machine
end

