-- ==== Sys2Proof/Safety.lean ====
section
/-! DEFINITION. What counts as a safe state and a safe run, in the terms claims use: the invariants of the machine, and what the spec asks
of a host program (spec 70 R118 to R120). -/

namespace Sys2Proof.Machine

/-- The buffers are in canonical form and hold only cells that exist (spec 10 R21, R22). -/
structure State.BuffersOk (s : State) : Prop where
  lbufWf : s.lbuf.wf
  lbufWithin : s.lbuf.within s.cfg.logicalSize
  pbufWf : s.pbuf.wf
  pbufWithin : s.pbuf.within (s.cfg.bufferSize + 1)

/-- STATUS holds a legal value: reserved bits 0, RESULT not 3 (spec 10 R26, R27, 93 I13). -/
structure State.StatusOk (s : State) : Prop where
  reserved : s.status &&& ~~~statusMask = 0
  legal : s.result ≠ 3

/-- A transaction PAM may issue: to DEV_ADDR, of 2 to BUFFER_SIZE+1 bytes (spec 20 R43, R47, 40 R66). -/
structure BusRecord.Legal (c : Config) (r : BusRecord) : Prop where
  addr : r.addr = c.devAddr
  atLeast : 2 ≤ r.bytes.length
  atMost : r.bytes.length ≤ c.bufferSize + 1

/-- Every transaction issued so far is one PAM may issue. -/
def State.TraceOk (s : State) : Prop := ∀ r ∈ s.trace, r.Legal s.cfg

/-- The invariant of the machine. -/
structure State.Inv (s : State) : Prop where
  buffers : s.BuffersOk
  status : s.StatusOk
  trace : s.TraceOk

/-- The slot reads outside LBUF (spec 41 R78). -/
def Slot.isOob : Slot → Bool
  | .skip => false
  | .read _ => false
  | .oob _ => true

/-- How many of the slots before `j` read outside LBUF: the number, within one MAP or DRAW, of slot `j`'s own draw (log 8). -/
def oobBefore (c : Config) (j : Nat) : Nat := (List.range j).countP (fun k => (slot c k).isOob)

/-- The configuration has a slot that reads outside LBUF. -/
def hasOob (c : Config) : Bool := (List.range c.bufferSize).any (fun k => (slot c k).isOob)

/-- The byte slot `j` holds after the slot loop started in `s` (spec 41 R77 to R79): none where it is still unwritten. -/
def mappedByte (s : State) (j : Nat) : Option Byte :=
  match slot s.cfg j with
  | .skip => s.pbuf.read (1 + j)
  | .read idx => s.lbuf.read idx
  | .oob idx => some (Config.draw (s.byteDraws + oobBefore s.cfg j) j idx)

/-- Every LBUF cell that a READ slot names is written: what a host owes before MAP or DRAW (spec 70 R119). -/
def State.ReadyToMap (s : State) : Prop :=
  ∀ j idx, j < s.cfg.bufferSize → slot s.cfg j = .read idx → (s.lbuf.read idx).isSome

/-- The payload of a block write of length n is written: what a host owes before WBLK (spec 70 R119). -/
def State.ReadyToSend (s : State) (n : Nat) : Prop :=
  ∀ i, 1 ≤ i → i ≤ n → (s.pbuf.read i).isSome

/-- The bus answers the first `n` transactions, each with ok (an input of the outside). -/
def State.BusOk (s : State) (n : Nat) : Prop := ∀ k, k < n → s.busIn[k]? = some .ok

/-- The page hazard is met: a picture write issued now lands on page 0 (spec 70 R120). -/
def State.PageReady (s : State) : Prop := s.page = some pageFrame0

/-- The records of a complete INIT, all ok (spec 42 R87, R88). -/
def initRecords (c : Config) : List BusRecord := (initSequence c).map (fun bytes => ⟨c.devAddr, bytes, .ok⟩)

/-- INIT was run to completion at some time since reset: what a host owes before picture writes (spec 70 R118). -/
def State.Initialised (s : State) : Prop := initRecords s.cfg <:+: s.trace

/-- The next event of the outside is a reset. -/
def State.resetNext (s : State) : Prop := s.hostIn.head? = some .reset

/-- The next event of the outside writes STATUS with bit 8 set, which clears OOB (spec 10 R26). -/
def State.clearsOobNext (s : State) : Prop := ∃ v : Word, s.hostIn.head? = some (.st32 statusOffset v) ∧ v.getLsbD 8 = true

end Sys2Proof.Machine
end

