-- ==== Sys2Proof/Certificates/Slice0/Obligations.lean ====
section
/-! DEFINITION. The statements for the provers, from the numbered rules of spec/. A statement about a free value holds for every value of
it. Each docstring names the rule it formalises. -/

namespace Sys2Proof.Claims

open Sys2Proof.Machine

/-! ## Words the statements share -/

/-- `out` is what the bus collaborator answers the next transaction: the queued answer where one is queued, else anything. -/
def Answered (s : State) (out : BusOutcome) : Prop :=
  (s.busIn.head? = some .ok → out = .ok) ∧ (s.busIn.head? = some .fail → out = .fail)

/-- The bus answers the next transaction. -/
def BusAnswers (s : State) : Prop := s.busIn.head? ≠ some .never

/-- `STATUS.RESULT` after a command whose last transaction returned `out` (spec 10 R27). -/
def resultOf : BusOutcome → BitVec 2
  | .ok => 0
  | .fail => 1

/-- The configuration and what belongs to the host are as before. -/
def HostSideKept (s t : State) : Prop := t.cfg = s.cfg ∧ t.hostIn = s.hostIn ∧ t.hostOut = s.hostOut

/-- What belongs to the bus collaborator, and TRACE, are as before. -/
def BusSideKept (s t : State) : Prop := t.trace = s.trace ∧ t.busIn = s.busIn ∧ t.busDraws = s.busDraws

/-- Nothing but RESULT may differ. -/
def OnlyResultChanges (s t : State) : Prop :=
  t.oob = s.oob ∧ t.lbuf = s.lbuf ∧ t.pbuf = s.pbuf ∧ HostSideKept s t ∧ BusSideKept s t ∧ t.byteDraws = s.byteDraws

/-- The first READ slot, in ascending order, whose LBUF cell is unwritten is slot `j`, and names cell `idx`. -/
def FirstUnwritten (s : State) (j idx : Nat) : Prop :=
  j < s.cfg.bufferSize ∧ slot s.cfg j = .read idx ∧ s.lbuf.read idx = none ∧
  ∀ k i, k < j → slot s.cfg k = .read i → (s.lbuf.read i).isSome

/-- The byte slot `j` of a frame of DRAW carries (spec 42 R84): 0x00 where it is skipped. -/
def frameByte (s : State) (j : Nat) : Option Byte :=
  match slot s.cfg j with
  | .skip => some 0x00
  | .read idx => s.lbuf.read idx
  | .oob idx => some (Config.draw (s.byteDraws + oobBefore s.cfg j) j idx)

/-- The sizes of the reference configuration (spec 00 R6 to R8), whatever the other parameters are. -/
def ReferenceSizes (c : Config) : Prop := c.width = 17 ∧ c.height = 7 ∧ c.bufferSize = 144

/-- The causes (a), (b), (c) of an illegal word, as spec 30 R57 lists them. -/
def IllegalByR57 (c : Config) (w : Word) : Prop :=
  (w.extractLsb' 24 8 = 0x00 ∨ 0x06 ≤ (w.extractLsb' 24 8).toNat) ∨
  (w.extractLsb' 24 8 = 0x01 ∧ w.extractLsb' 16 8 ≠ 0) ∨
  (w.extractLsb' 24 8 = 0x02 ∧ w.extractLsb' 0 8 ≠ 0) ∨
  ((w.extractLsb' 24 8 = 0x03 ∨ w.extractLsb' 24 8 = 0x04 ∨ w.extractLsb' 24 8 = 0x05) ∧
    (w.extractLsb' 16 8 ≠ 0 ∨ w.extractLsb' 8 8 ≠ 0 ∨ w.extractLsb' 0 8 ≠ 0)) ∨
  (w.extractLsb' 24 8 = 0x02 ∧ ((w.extractLsb' 16 8).toNat = 0 ∨ c.bufferSize < (w.extractLsb' 16 8).toNat))

/-- The bus leaves none of at most `n` transactions, stopping at the first fail, unanswered. -/
def BusAnswersUpTo (s : State) (n : Nat) : Prop :=
  ∀ k, k < n → (∀ m, m < k → s.busIn[m]? = some .ok) → s.busIn[k]? ≠ some .never

/-- The bus answers step `k` (from 0) of a sequence with fail and all earlier ones with ok. -/
def BusFailsAt (s : State) (k : Nat) : Prop := (∀ m, m < k → s.busIn[m]? = some .ok) ∧ s.busIn[k]? = some .fail

/-- The records a sequence of transactions that stops at the first fail leaves, and its RESULT (spec 42 R88). -/
def StoppedAtFirstFail (c : Config) (txs : List (List Byte)) (recs : List BusRecord) (result : BitVec 2) : Prop :=
  recs.map (·.bytes) <+: txs ∧ (∀ r ∈ recs, r.addr = c.devAddr) ∧
  ((recs.length = txs.length ∧ (∀ r ∈ recs, r.outcome = .ok) ∧ result = 0) ∨
   (∃ front last, recs = front ++ [last] ∧ (∀ r ∈ front, r.outcome = .ok) ∧ last.outcome = .fail ∧ result = 1))

/-- A host access at offset `off`, of any width and direction. -/
def AccessAt (off : Offset) (e : HostEvent) : Prop :=
  (∃ b, e = .st8 off b) ∨ e = .ld8 off ∨ (∃ w, e = .st32 off w) ∨ e = .ld32 off ∨ e = .otherWidth off

/-- A host access at offset `off` that is not one byte wide. -/
def WideAccessAt (off : Offset) (e : HostEvent) : Prop := (∃ w, e = .st32 off w) ∨ e = .ld32 off ∨ e = .otherWidth off

/-- A host access at offset `off` that is not 32 bits wide. -/
def NotWordAccessAt (off : Offset) (e : HostEvent) : Prop := (∃ b, e = .st8 off b) ∨ e = .ld8 off ∨ e = .otherWidth off

/-- The reserved offsets of spec 20 R36. -/
def ReservedOffset (c : Config) (off : Offset) : Prop :=
  (c.width * c.height ≤ off.toNat ∧ off.toNat ≤ 0x0ff) ∨
  (0x100 + c.bufferSize + 1 ≤ off.toNat ∧ off.toNat ≤ 0x1ff) ∨
  0x208 ≤ off.toNat

/-- The offsets of the two buffer windows of spec 20 R36. -/
def BufferOffset (c : Config) (off : Offset) : Prop :=
  off.toNat < c.width * c.height ∨ (0x100 ≤ off.toNat ∧ off.toNat ≤ 0x100 + c.bufferSize)

end Sys2Proof.Claims

open Sys2Proof Sys2Proof.Machine Sys2Proof.Claims

/-! ## Reset, configuration, idling -/

/-- Spec 70 R115, 10 R34: reset leaves every cell unwritten, STATUS 0, TRACE empty and the page UNKNOWN. That PAM is then idle is said in the
model's terms: the queue of host events is the model's own, empty at reset, and a step with nothing queued answers the same state (log 4). -/
def Obligations.ResetLeavesTheSpecifiedState : Prop :=
  (∀ i, State.reset.lbuf.read i = none ∧ State.reset.pbuf.read i = none) ∧
  State.reset.result = 0 ∧ State.reset.oob = false ∧ State.reset.statusWord = 0 ∧
  State.reset.trace = [] ∧ State.reset.page = none ∧ step State.reset = .next State.reset

/-- Spec 70 R115 to R117: a reset event gives the same values, issues no transaction and touches nothing outside PAM (the last is the model's
choice, log 10). -/
def Obligations.ResetEventGivesTheResetValues : Prop :=
  ∀ (s : State) (rest : List HostEvent), s.cfg.valid = true → s.hostIn = .reset :: rest →
    ∃ t, step s = .next t ∧ (∀ i, t.lbuf.read i = none ∧ t.pbuf.read i = none) ∧ t.result = 0 ∧ t.oob = false ∧ t.statusWord = 0 ∧
      t.trace = [] ∧ t.page = none ∧ t.cfg = s.cfg ∧ t.hostIn = rest ∧ t.hostOut = s.hostOut ∧ t.busIn = s.busIn ∧
      t.busDraws = s.busDraws ∧ t.byteDraws = s.byteDraws

/-- Spec 00 R15: the constraints, all of them, and the refusal of a configuration that violates one. -/
def Obligations.ConfigurationsOutsideTheBoundsAreRefused : Prop :=
  ∀ s : State,
    (s.cfg.valid = true ↔
      1 ≤ s.cfg.width ∧ 1 ≤ s.cfg.height ∧ s.cfg.width * s.cfg.height ≤ 256 ∧ 1 ≤ s.cfg.bufferSize ∧ s.cfg.bufferSize ≤ 255 ∧
      s.cfg.width + 1 ≤ s.cfg.bufferSize) ∧
    (s.cfg.valid = false → step s = .refused .configuration) ∧ Config.reference.valid = true

/-- Spec 60 R114, 20 R44: with nothing to do PAM is idle with all state kept (the queue of host events is the model's own, log 4). -/
def Obligations.IdleKeepsAllState : Prop :=
  ∀ s : State, s.cfg.valid = true → s.hostIn = [] → step s = .next s

/-- Spec 10 R33: no command and no host access changes the configuration, and INIT sends the same bytes whatever PBUF holds. The two INIT runs
compared have the same answers of the bus (log 6): that comparison is the model's. -/
def Obligations.StepKeepsTheConfiguration : Prop :=
  (∀ (s t : State), step s = .next t → t.cfg = s.cfg) ∧
  (∀ (i : Instr) (s t : State), exec i s = .next t → t.cfg = s.cfg) ∧
  (∀ (s t : State) (p : Memory), exec .init s = .next t → exec .init { s with pbuf := p } = .next { t with pbuf := p })

/-! ## The command word -/

/-- Spec 30 R54, R58: the word of a command decodes to it, with every operand at every value; a block length no word may name is rejected by
name. -/
def Obligations.DecodeOfEncodeIsTheCommand : Prop :=
  ∀ (c : Config) (i : Instr),
    (i.wf c = true → decode c (encode i) = .ok i) ∧ (i.wf c = false → decode c (encode i) = .error .blockLength)

/-- Spec 30 R58, R59: a word names at most one command, and is that command's encoding. -/
def Obligations.EncodeOfDecodeIsTheWord : Prop :=
  ∀ (c : Config) (w : Word) (i : Instr), decode c w = .ok i → encode i = w ∧ i.wf c = true

/-- Spec 30 R58: the decoder, line by line, total on every word. -/
def Obligations.DecoderFollowsTheTable : Prop :=
  ∀ (c : Config) (w : Word),
    (∀ reg val, decode c w = .ok (.wreg reg val) ↔
      w.extractLsb' 24 8 = 0x01 ∧ w.extractLsb' 16 8 = 0 ∧ reg = w.extractLsb' 8 8 ∧ val = w.extractLsb' 0 8) ∧
    (∀ reg len, decode c w = .ok (.wblk reg len) ↔
      w.extractLsb' 24 8 = 0x02 ∧ w.extractLsb' 0 8 = 0 ∧ 1 ≤ (w.extractLsb' 16 8).toNat ∧
      (w.extractLsb' 16 8).toNat ≤ c.bufferSize ∧ reg = w.extractLsb' 8 8 ∧ len = w.extractLsb' 16 8) ∧
    (decode c w = .ok .map ↔ w.extractLsb' 24 8 = 0x03 ∧ w.extractLsb' 0 24 = 0) ∧
    (decode c w = .ok .draw ↔ w.extractLsb' 24 8 = 0x04 ∧ w.extractLsb' 0 24 = 0) ∧
    (decode c w = .ok .init ↔ w.extractLsb' 24 8 = 0x05 ∧ w.extractLsb' 0 24 = 0) ∧
    ((∃ e, decode c w = .error e) ↔ ∀ i, decode c w ≠ .ok i)

/-- Spec 30 R57, 60 R98: a word is illegal exactly for the causes listed, and writing one to CMD changes RESULT only, which becomes 2. -/
def Obligations.IllegalWordsChangeResultOnly : Prop :=
  ∀ (s : State) (w : Word),
    ((∃ e, decode s.cfg w = .error e) ↔ IllegalByR57 s.cfg w) ∧
    (IllegalByR57 s.cfg w →
      ∃ t, writeCmd w s = .next t ∧ t.result = 2 ∧ OnlyResultChanges s t)

/-- Spec 95 §2.1: words of its table, at the reference configuration. -/
def Obligations.ListedWordsDecodeAsTabulated : Prop :=
  decode Config.reference 0x01000A01 = .ok (.wreg 0x0a 0x01) ∧
  decode Config.reference 0x0100FFFF = .ok (.wreg 0xff 0xff) ∧
  decode Config.reference 0x02010000 = .ok (.wblk 0x00 1) ∧
  decode Config.reference 0x02904000 = .ok (.wblk 0x40 144) ∧
  decode Config.reference 0x03000000 = .ok .map ∧
  decode Config.reference 0x04000000 = .ok .draw ∧
  decode Config.reference 0x05000000 = .ok .init ∧
  decode Config.reference 0x00000000 = .error .reservedOpcode ∧
  decode Config.reference 0x01010A01 = .error .mustBeZero ∧
  decode Config.reference 0x02910000 = .error .blockLength ∧
  decode Config.reference 0x02000000 = .error .blockLength ∧
  decode Config.reference 0x02014001 = .error .mustBeZero ∧
  decode Config.reference 0x04800000 = .error .mustBeZero ∧
  decode Config.reference 0xFFFFFFFF = .error .reservedOpcode

/-- Spec 20 R39: the byte lanes of a word, lowest first, decode as the word. -/
def Obligations.ByteLanesDecodeAsTheWord : Prop :=
  ∀ (c : Config) (w : Word),
    wordOfLanes (laneOf w 0) (laneOf w 1) (laneOf w 2) (laneOf w 3) = w ∧
    decodeBytes c [laneOf w 0, laneOf w 1, laneOf w 2, laneOf w 3] = decode c w

/-! ## A step -/

/-- Spec 10 R25, 20 R45: a step whose host access writes a command word to CMD runs exactly the decoded command, the access taken off the
queue; and `withFetchWord` puts such an access at its head (the queue of host events is the model's own, log 4). -/
def Obligations.StepRunsTheDecodedCommand : Prop :=
  (∀ (s : State) (w : Word) (i : Instr) (rest : List HostEvent),
    s.cfg.valid = true → s.hostIn = .st32 cmdOffset w :: rest → decode s.cfg w = .ok i →
      step s = exec i { s with hostIn := rest }) ∧
  (∀ (s : State) (w : Nat) (i : Instr),
    s.cfg.valid = true → decode s.cfg (BitVec.ofNat 32 w) = .ok i → step (s.withFetchWord 32 w) = exec i s)

/-- Spec 60 R96, R98: a step whose host access writes an illegal word to CMD. -/
def Obligations.StepOfAnIllegalWordReportsIllegal : Prop :=
  ∀ (s : State) (w : Word) (rest : List HostEvent),
    s.cfg.valid = true → s.hostIn = .st32 cmdOffset w :: rest → IllegalByR57 s.cfg w →
      ∃ t, step s = .next t ∧ t.result = 2 ∧ t.oob = s.oob ∧ t.lbuf = s.lbuf ∧ t.pbuf = s.pbuf ∧ t.cfg = s.cfg ∧ t.hostIn = rest ∧
        t.hostOut = s.hostOut ∧ BusSideKept s t

/-- Spec 60 R100: an illegal word raises ILLEGAL and nothing else, whatever the buffers and the bus hold, and no legal command raises it. -/
def Obligations.OnlyIllegalWordsRaiseIllegal : Prop :=
  (∀ (s : State) (w : Word), IllegalByR57 s.cfg w → ∃ t, writeCmd w s = .next t ∧ t.result = 2 ∧ OnlyResultChanges s t) ∧
  (∀ (s t : State) (w : Word), ¬ IllegalByR57 s.cfg w → writeCmd w s = .next t → t.result ≠ 2)

/-! ## WREG and WBLK -/

/-- Spec 40 R64: WREG. Its encoding, that a non-zero LEN is no WREG, and its completion: exactly one transaction of the two bytes, RESULT from
the outcome, a page select where the register is REG_CMD, and nothing else, with PBUF written or not. -/
def Obligations.WregSendsRegisterAndValue : Prop :=
  ∀ (reg val : Byte) (s : State),
    encode (.wreg reg val) = (0x01 : Byte) ++ (0x00 : Byte) ++ reg ++ val ∧
    (∀ len : Byte, len ≠ 0 → ∃ e, decode s.cfg ((0x01 : Byte) ++ len ++ reg ++ val) = .error e) ∧
    (BusAnswers s →
      ∃ t out, exec (.wreg reg val) s = .next t ∧ Answered s out ∧
        t.trace = s.trace ++ [⟨s.cfg.devAddr, [reg, val], out⟩] ∧ t.result = resultOf out ∧
        (reg = s.cfg.regCmd → t.page = if out = .ok then some val else none) ∧ (reg ≠ s.cfg.regCmd → t.page = s.page) ∧
        t.lbuf = s.lbuf ∧ t.pbuf = s.pbuf ∧ t.oob = s.oob ∧ HostSideKept s t ∧ t.busIn = s.busIn.tail ∧ t.byteDraws = s.byteDraws)

/-- Spec 40 R65: WBLK. Its encoding; writing a word with a VAL that is not 0, or with a length out of range, to CMD is ILLEGAL and changes RESULT
only, so nothing is sent and PBUF[0] is kept; the first unwritten payload cell faults; and its completion: one transaction of reg and
PBUF[1..N], PBUF[0] set to reg whatever the outcome, the cells beyond N not read, no page select where more than one byte follows REG_CMD. -/
def Obligations.WblkSendsThePayload : Prop :=
  ∀ (reg len : Byte) (s : State),
    encode (.wblk reg len) = (0x02 : Byte) ++ len ++ reg ++ (0x00 : Byte) ∧
    (∀ val : Byte, val ≠ 0 →
      (∃ e, decode s.cfg ((0x02 : Byte) ++ len ++ reg ++ val) = .error e) ∧
      ∃ t, writeCmd ((0x02 : Byte) ++ len ++ reg ++ val) s = .next t ∧ t.result = 2 ∧ OnlyResultChanges s t) ∧
    (len.toNat = 0 ∨ s.cfg.bufferSize < len.toNat →
      ∃ t, writeCmd (encode (.wblk reg len)) s = .next t ∧ t.result = 2 ∧ OnlyResultChanges s t) ∧
    (∀ i, len.toNat ≤ s.cfg.bufferSize → 1 ≤ i → i ≤ len.toNat → s.pbuf.read i = none →
      (∀ k, 1 ≤ k → k < i → (s.pbuf.read k).isSome) → exec (.wblk reg len) s = .fault (.unwritten .pbuf i)) ∧
    (∀ payload : List Byte, 1 ≤ len.toNat → len.toNat ≤ s.cfg.bufferSize → payload.length = len.toNat →
      (∀ i, i < len.toNat → s.pbuf.read (1 + i) = payload[i]?) → BusAnswers s →
        ∃ t out, exec (.wblk reg len) s = .next t ∧ Answered s out ∧
          t.trace = s.trace ++ [⟨s.cfg.devAddr, reg :: payload, out⟩] ∧ t.result = resultOf out ∧
          t.pbuf.read 0 = some reg ∧ (∀ i, i ≠ 0 → t.pbuf.read i = s.pbuf.read i) ∧
          (reg ≠ s.cfg.regCmd → t.page = s.page) ∧ (reg = s.cfg.regCmd → 2 ≤ len.toNat → t.page = none) ∧
          t.lbuf = s.lbuf ∧ t.oob = s.oob ∧ HostSideKept s t ∧ t.busIn = s.busIn.tail ∧ t.byteDraws = s.byteDraws)

/-- Spec 40 R66, 30 R57 (c): a block length of 0 or above MAX_PAYLOAD is ILLEGAL and never reaches the bus, and no transaction of any command
exceeds BUFFER_SIZE+1 bytes. That exec of such a WBLK, which no word decodes to, answers ILLEGAL too is the model's (log 11, DEDUCED; no step
reaches it). -/
def Obligations.PayloadBoundIsEnforcedAtDecode : Prop :=
  (∀ (reg len : Byte) (s : State), len.toNat = 0 ∨ s.cfg.bufferSize < len.toNat →
    decode s.cfg (encode (.wblk reg len)) = .error .blockLength ∧
    ∃ t, exec (.wblk reg len) s = .next t ∧ t.result = 2 ∧ OnlyResultChanges s t) ∧
  (∀ (i : Instr) (s t : State), s.cfg.valid = true → exec i s = .next t →
    ∀ r ∈ t.trace, r ∈ s.trace ∨ r.bytes.length ≤ s.cfg.bufferSize + 1)

/-- Spec 40 R63: what the two transport commands share, for every register index and payload: exactly one transaction to DEV_ADDR (so no
retry), RESULT from its outcome, LBUF, OOB and the configuration kept. -/
def Obligations.TransportCommandsShareTheirBehaviour : Prop :=
  ∀ (i : Instr) (s t : State), ((∃ reg val, i = .wreg reg val) ∨ (∃ reg len, i = .wblk reg len)) → i.wf s.cfg = true →
    exec i s = .next t →
      (∃ r, t.trace = s.trace ++ [r] ∧ r.addr = s.cfg.devAddr ∧ t.result = resultOf r.outcome ∧ Answered s r.outcome) ∧
      t.lbuf = s.lbuf ∧ t.oob = s.oob ∧ t.cfg = s.cfg ∧ t.busIn = s.busIn.tail

/-! ## The mapper -/

/-- Spec 41 R72, R73: col and row of a slot, the parity branch in Int, and exactly when it goes below zero. -/
def Obligations.ParityBranchGivesFastAndSlow : Prop :=
  (∀ (c : Config) (j : Nat), j < c.bufferSize →
    slotCol j = j / 8 ∧ slotRow j = j % 8 ∧ slotRow j ≤ 7 ∧ slotCol j ≤ (c.bufferSize - 1) / 8 ∧
    (slotCol j % 2 = 1 →
      slotFast c j = (c.width : Int) / 2 - (slotCol j : Int) / 2 - 1 ∧ slotSlow c j = (c.height : Int) - (slotRow j : Int) - 1) ∧
    (slotCol j % 2 = 0 → slotFast c j = (c.width : Int) / 2 + (slotCol j : Int) / 2 ∧ slotSlow c j = (slotRow j : Int)) ∧
    (slotFast c j < 0 ↔ slotCol j % 2 = 1 ∧ c.width / 2 ≤ slotCol j / 2) ∧
    (slotSlow c j < 0 ↔ slotCol j % 2 = 1 ∧ c.height ≤ slotRow j)) ∧
  (∀ c : Config, ReferenceSizes c →
    slotFast c 0 = 8 ∧ slotSlow c 0 = 0 ∧ (∀ r, r < 8 → slotFast c (136 + r) = -1) ∧ (∀ k, k < 9 → slotSlow c (16 * k + 15) = -1))

/-- Spec 41 R75: the guard, as specified and corrected; a skipped slot does nothing, so it reads nothing. -/
def Obligations.GuardSkipsBeyondTheBounds : Prop :=
  (∀ (c : Config) (f v : Int), c.guard = .gt → (guardSkips c f v = true ↔ v > (c.height : Int) ∨ f > (c.width : Int))) ∧
  (∀ (c : Config) (f v : Int), c.guard = .ge → (guardSkips c f v = true ↔ v ≥ (c.height : Int) ∨ f ≥ (c.width : Int))) ∧
  (∀ (j : Nat) (s : State), slot s.cfg j = .skip → mapSlot j s = .next s)

/-- Spec 41 R74: what the guard sees. Under UNSIGNED a negative value wraps, to at least 2^32 - 16 in a legal configuration, and the slot is
skipped under either guard, as if negatives were skipped before the guard; a slot not skipped has a non-negative index of at most
WIDTH + HEIGHT*WIDTH. Under SIGNED the guard sees the values themselves, and a negative one passes its comparison. -/
def Obligations.NegativeIntermediatesWrapOnlyWhenUnsigned : Prop :=
  (∀ x : Int, view .signed x = x ∧ view .unsigned x = x % 2 ^ 32) ∧
  (∀ (c : Config) (j : Nat), c.valid = true → j < c.bufferSize → c.arith = .unsigned →
    (slotFast c j < 0 → view c.arith (slotFast c j) = 2 ^ 32 + slotFast c j ∧ 2 ^ 32 - 16 ≤ view c.arith (slotFast c j)) ∧
    (slotSlow c j < 0 → view c.arith (slotSlow c j) = 2 ^ 32 + slotSlow c j ∧ 2 ^ 32 - 16 ≤ view c.arith (slotSlow c j)) ∧
    (slotFast c j < 0 ∨ slotSlow c j < 0 → slot c j = .skip) ∧
    (0 ≤ slotFast c j → 0 ≤ slotSlow c j → slot c j = slot { c with arith := .signed } j) ∧
    (slot c j ≠ .skip → 0 ≤ slotIdx c j ∧ slotIdx c j ≤ (c.width : Int) + (c.height : Int) * (c.width : Int))) ∧
  (∀ (c : Config) (j : Nat), c.arith = .signed →
    (slot c j = .skip ↔ guardSkips c (slotFast c j) (slotSlow c j) = true)) ∧
  (∀ (c : Config) (f v : Int),
    (f < 0 → (guardSkips c f v = true ↔ if c.guard = .gt then v > (c.height : Int) else v ≥ (c.height : Int))) ∧
    (v < 0 → (guardSkips c f v = true ↔ if c.guard = .gt then f > (c.width : Int) else f ≥ (c.width : Int))))

/-- Spec 41 R76: the source index of a slot that is not skipped, its range, how it leaves the range, the pixel it names, and the alias under
SIGNED. -/
def Obligations.SourceIndexIsInRangeOrOutOfBounds : Prop :=
  ∀ (c : Config) (j : Nat),
    slotIdx c j = slotFast c j + slotSlow c j * (c.width : Int) ∧
    (slot c j ≠ .skip → 0 ≤ slotIdx c j ∧ slotIdx c j < ((c.width * c.height : Nat) : Int) → slot c j = .read (slotIdx c j).toNat) ∧
    (slot c j ≠ .skip → ¬ (0 ≤ slotIdx c j ∧ slotIdx c j < ((c.width * c.height : Nat) : Int)) → slot c j = .oob (slotIdx c j)) ∧
    (∀ idx, slot c j = .read idx → idx < c.width * c.height ∧ (idx : Int) = slotIdx c j) ∧
    (0 ≤ slotFast c j → slotFast c j < (c.width : Int) → 0 ≤ slotSlow c j → slotSlow c j < (c.height : Int) →
      0 ≤ slotIdx c j ∧ slotIdx c j < ((c.width * c.height : Nat) : Int) ∧
      slotIdx c j % (c.width : Int) = slotFast c j ∧ slotIdx c j / (c.width : Int) = slotSlow c j) ∧
    (slotFast c j = -1 → slotIdx c j = ((c.width : Int) - 1) + (slotSlow c j - 1) * (c.width : Int)) ∧
    (c.valid = true → j < c.bufferSize → ∀ idx, slot c j = .oob idx →
      (idx < 0 ∧ c.arith = .signed) ∨
      (((c.width * c.height : Nat) : Int) ≤ idx ∧ (slotSlow c j = (c.height : Int) ∨ slotFast c j = (c.width : Int))))

/-- Spec 41 R82: the slot table at the reference sizes, in its closed forms, in all four settings, with its totals and, under UNSIGNED, the
bijection onto the pixels. -/
def Obligations.ReferenceSlotTableHasItsClosedForms : Prop :=
  ∀ c : Config, ReferenceSizes c →
    (∀ k r, k ≤ 8 → r ≤ 6 → slot c (16 * k + r) = .read (8 + k + r * 17)) ∧
    (∀ k, k ≤ 8 → slot c (16 * k + 7) = match c.guard with
      | .gt => .oob (127 + k)
      | .ge => .skip) ∧
    (∀ k r, k ≤ 7 → r ≤ 6 → slot c (16 * k + 8 + r) = .read (7 - k + (6 - r) * 17)) ∧
    (∀ k, k ≤ 7 → slot c (16 * k + 15) = match c.arith with
      | .unsigned => .skip
      | .signed => .oob (-10 - k)) ∧
    (∀ r, r ≤ 5 → slot c (136 + r) = match c.arith with
      | .unsigned => .skip
      | .signed => .read (101 - 17 * r)) ∧
    (slot c 142 = match c.arith with
      | .unsigned => .skip
      | .signed => .oob (-1)) ∧
    (slot c 143 = match c.arith with
      | .unsigned => .skip
      | .signed => .oob (-18)) ∧
    ((List.range 144).countP (fun j => slot c j ≠ .skip ∧ (slot c j).isOob = false), (List.range 144).countP (fun j => slot c j = .skip),
      (List.range 144).countP (fun j => (slot c j).isOob)) =
      (match c.arith, c.guard with
        | .unsigned, .gt => (119, 16, 9)
        | .unsigned, .ge => (119, 25, 0)
        | .signed, .gt => (125, 0, 19)
        | .signed, .ge => (125, 9, 10)) ∧
    (c.arith = .unsigned → ∀ x y j, x < 17 → y < 7 → j < 144 →
      (slot c j = .read (x + y * 17) ↔ j = if 8 ≤ x then 16 * (x - 8) + y else 126 - 16 * x - y))

/-- Spec 41 R69, R77 to R79: MAP. Its word, and that no other operand bits make a MAP; it faults at the first READ slot whose cell is
unwritten; and it completes where every READ slot's cell is written: each slot as its verdict says (a READ the byte unchanged, a SKIP its old
value, an OOB its own draw, whatever that is), RESULT = OK, OOB set if a slot is out of range and kept otherwise, PBUF[0], LBUF and the bus
untouched. -/
def Obligations.MapWritesEachSlotByItsVerdict : Prop :=
  ∀ s : State,
    encode .map = 0x03000000 ∧ (∀ x : BitVec 24, x ≠ 0 → ∃ e, decode s.cfg ((0x03 : Byte) ++ x) = .error e) ∧
    (∀ j idx, FirstUnwritten s j idx → exec .map s = .fault (.unwritten .lbuf idx)) ∧
    (s.ReadyToMap →
      ∃ t, exec .map s = .next t ∧ (∀ j, j < s.cfg.bufferSize → t.pbuf.read (1 + j) = mappedByte s j) ∧
        (∀ i, i = 0 ∨ s.cfg.bufferSize < i → t.pbuf.read i = s.pbuf.read i) ∧ t.result = 0 ∧ t.oob = (s.oob || hasOob s.cfg) ∧
        t.lbuf = s.lbuf ∧ HostSideKept s t ∧ BusSideKept s t)

/-- Spec 41 R80: MAP always ends with RESULT = OK unless a model fault stopped it, and it completes exactly where the caller's duty is met;
its only stop is F_UNWRITTEN of LBUF. -/
def Obligations.MapEndsOkUnlessACellIsUnwritten : Prop :=
  ∀ s : State,
    (∀ t, exec .map s = .next t → t.result = 0) ∧ ((∃ t, exec .map s = .next t) ↔ s.ReadyToMap) ∧
    (∀ f, exec .map s = .fault f → ∃ idx, f = .unwritten .lbuf idx) ∧ (∀ r, exec .map s ≠ .refused r)

/-- Spec 41 R81: two MAPs from the same LBUF and PBUF agree in every slot that is not out of range; under GE and UNSIGNED no slot is, and they
agree everywhere. -/
def Obligations.MapIsDeterministicOutsideOobSlots : Prop :=
  ∀ s₁ s₂ t₁ t₂ : State, s₁.cfg = s₂.cfg → s₁.lbuf = s₂.lbuf → s₁.pbuf = s₂.pbuf →
    exec .map s₁ = .next t₁ → exec .map s₂ = .next t₂ →
      (∀ j, j < s₁.cfg.bufferSize → (slot s₁.cfg j).isOob = false → t₁.pbuf.read (1 + j) = t₂.pbuf.read (1 + j)) ∧
      (s₁.cfg.valid = true → s₁.cfg.guard = .ge → s₁.cfg.arith = .unsigned →
        (∀ j, j < s₁.cfg.bufferSize → (slot s₁.cfg j).isOob = false) ∧ ∀ i, t₁.pbuf.read i = t₂.pbuf.read i)

/-- Spec 60 R102: a model fault wins over every later effect: MAP and DRAW fault at the first READ slot whose cell is unwritten, WBLK at the
first unwritten payload cell, whatever the bus would answer. -/
def Obligations.ModelFaultsComeBeforeAnyTransaction : Prop :=
  (∀ (s : State) (j idx : Nat), FirstUnwritten s j idx →
    exec .map s = .fault (.unwritten .lbuf idx) ∧ exec .draw s = .fault (.unwritten .lbuf idx)) ∧
  (∀ (s : State) (reg len : Byte) (i : Nat), len.toNat ≤ s.cfg.bufferSize → 1 ≤ i → i ≤ len.toNat → s.pbuf.read i = none →
    (∀ k, 1 ≤ k → k < i → (s.pbuf.read k).isSome) → exec (.wblk reg len) s = .fault (.unwritten .pbuf i))

/-! ## DRAW -/

/-- Spec 42 R84: DRAW. Its word, and that no other operand bits make a DRAW; it faults at the first READ slot whose cell is unwritten; and it
completes where every READ slot's cell is written and the bus answers: one transaction of REG_IMAGE and the frame, the frame left in PBUF,
skipped slots 0x00, out-of-range slots their draws, RESULT from the outcome, OOB as in MAP. -/
def Obligations.DrawSendsTheMappedFrame : Prop :=
  ∀ s : State,
    encode .draw = 0x04000000 ∧ (∀ x : BitVec 24, x ≠ 0 → ∃ e, decode s.cfg ((0x04 : Byte) ++ x) = .error e) ∧
    (∀ j idx, FirstUnwritten s j idx → exec .draw s = .fault (.unwritten .lbuf idx)) ∧
    (s.ReadyToMap → BusAnswers s →
      ∃ t out frame, exec .draw s = .next t ∧ Answered s out ∧ frame.length = s.cfg.bufferSize ∧
        t.trace = s.trace ++ [⟨s.cfg.devAddr, s.cfg.regImage :: frame, out⟩] ∧
        (∀ j, j < s.cfg.bufferSize → frame[j]? = frameByte s j ∧ t.pbuf.read (1 + j) = frame[j]?) ∧
        t.pbuf.read 0 = some s.cfg.regImage ∧ (∀ i, s.cfg.bufferSize < i → t.pbuf.read i = s.pbuf.read i) ∧
        t.result = resultOf out ∧ t.oob = (s.oob || hasOob s.cfg) ∧ t.lbuf = s.lbuf ∧ HostSideKept s t ∧ t.busIn = s.busIn.tail)

/-- Spec 42 R85: DRAW issues exactly one transaction, a whole frame to the image register, or none where a model fault stops it: it then stops
before the bus is asked, so it answers the same fault on every bus. -/
def Obligations.DrawIssuesExactlyOneTransaction : Prop :=
  (∀ s t : State, exec .draw s = .next t →
    ∃ r, t.trace = s.trace ++ [r] ∧ r.addr = s.cfg.devAddr ∧ r.bytes.length = s.cfg.bufferSize + 1 ∧
      r.bytes.head? = some s.cfg.regImage) ∧
  (∀ (s : State) (b : Buffer) (idx : Nat) (answers : List BusAnswer), exec .draw s = .fault (.unwritten b idx) →
    b = .lbuf ∧ exec .draw { s with busIn := answers } = .fault (.unwritten .lbuf idx))

/-- Spec 42 R84: the PBUF contents before DRAW never reach the bus, nor RESULT, OOB or the frame left in PBUF; DRAW stops for the same reason
whatever they are. The two runs compared have the same answers of the bus and the same draws (log 6, log 8). -/
def Obligations.DrawDoesNotDependOnOldPbuf : Prop :=
  ∀ (s : State) (p : Memory),
    (∀ t, exec .draw s = .next t →
      ∃ u, exec .draw { s with pbuf := p } = .next u ∧ u.trace = t.trace ∧ u.status = t.status ∧
        (∀ i, i ≤ s.cfg.bufferSize → u.pbuf.read i = t.pbuf.read i)) ∧
    (∀ f, exec .draw s = .fault f → exec .draw { s with pbuf := p } = .fault f)

/-- Spec 95 §2.7, 42 R85: DRAW sends no selector write, so the page is as before (where REG_IMAGE is not REG_CMD). -/
def Obligations.DrawKeepsThePage : Prop :=
  ∀ s t : State, s.cfg.regImage ≠ s.cfg.regCmd → exec .draw s = .next t → t.page = s.page

/-- Spec 42 R84, corner cases: after a DRAW, `wblk REG_IMAGE, BUFFER_SIZE` resends the same bytes. -/
def Obligations.WblkAfterDrawResendsTheFrame : Prop :=
  ∀ s t : State, s.cfg.valid = true → exec .draw s = .next t → BusAnswers t →
    ∃ u r r', exec (.wblk s.cfg.regImage (BitVec.ofNat 8 s.cfg.bufferSize)) t = .next u ∧ t.trace = s.trace ++ [r] ∧
      u.trace = t.trace ++ [r'] ∧ r'.bytes = r.bytes

/-! ## INIT -/

/-- Spec 42 R87: the nine transactions of INIT, byte for byte, at the reference width their lengths and their sum; INIT issues them in this order
and leaves PBUF untouched. -/
def Obligations.InitSequenceIsTheNineSteps : Prop :=
  (∀ c : Config, initSequence c =
    [[c.regCmd, c.pageFunction], [c.regMode, 0x00], [c.regFrame, 0x00], [c.regNullA, 0x00], [c.regNullB, 0x00], [0x0a, 0x01],
     [c.regCmd, 0x00], c.regMode :: List.replicate (c.width + 1) 0x7f, [c.regCmd, 0x00]]) ∧
  (∀ c : Config, c.width = 17 →
    (initSequence c).map List.length = [2, 2, 2, 2, 2, 2, 2, 19, 2] ∧ ((initSequence c).map List.length).sum = 35) ∧
  (∀ s t : State, exec .init s = .next t → t.pbuf = s.pbuf ∧ ∃ recs, t.trace = s.trace ++ recs ∧
    recs.map (·.bytes) <+: initSequence s.cfg)

/-- Spec 42 R86, R88: INIT. Its word, and that no other operand bits make an INIT; it raises no model fault of a buffer cell; and it completes
where the bus answers: its steps in order, stopping at the first fail with BUS_ERROR, OK after all nine; no buffer and no other flag touched. -/
def Obligations.InitStopsAtTheFirstFailure : Prop :=
  ∀ s : State,
    encode .init = 0x05000000 ∧ (∀ x : BitVec 24, x ≠ 0 → ∃ e, decode s.cfg ((0x05 : Byte) ++ x) = .error e) ∧
    (∀ b i, exec .init s ≠ .fault (.unwritten b i)) ∧
    (BusAnswersUpTo s 9 →
      ∃ t recs, exec .init s = .next t ∧ t.trace = s.trace ++ recs ∧ StoppedAtFirstFail s.cfg (initSequence s.cfg) recs t.result ∧
        t.lbuf = s.lbuf ∧ t.pbuf = s.pbuf ∧ t.oob = s.oob ∧ HostSideKept s t ∧ t.byteDraws = s.byteDraws)

/-- Spec 42 R87, R88, 95 §2.8: with nine oks INIT leaves its nine records and RESULT = OK; with step k+1 failing, the first k records, the failed
one, and RESULT = BUS_ERROR. -/
def Obligations.InitRecordsFollowTheAnswers : Prop :=
  (∀ s : State, s.BusOk 9 →
    ∃ t, exec .init s = .next t ∧ t.trace = s.trace ++ initRecords s.cfg ∧ t.result = 0 ∧ t.busIn = s.busIn.drop 9) ∧
  (∀ (s : State) (k : Nat) (bytes : List Byte), k < 9 → BusFailsAt s k → (initSequence s.cfg)[k]? = some bytes →
    ∃ t, exec .init s = .next t ∧
      t.trace = s.trace ++ (initRecords s.cfg).take k ++ [⟨s.cfg.devAddr, bytes, .fail⟩] ∧ t.result = 1 ∧ t.busIn = s.busIn.drop (k + 1))

/-- Spec 42 R89: INIT may be issued again at any time: after any INIT, completed or failed, it runs the whole sequence again from step 1. -/
def Obligations.InitMayBeRepeated : Prop :=
  ∀ s t : State, exec .init s = .next t →
    (BusAnswersUpTo t 9 →
      ∃ u recs, exec .init t = .next u ∧ u.trace = t.trace ++ recs ∧ StoppedAtFirstFail s.cfg (initSequence s.cfg) recs u.result) ∧
    (t.BusOk 9 → ∃ u, exec .init t = .next u ∧ u.trace = t.trace ++ initRecords s.cfg ∧ u.result = 0)

/-- Spec 42 R90: the page after an INIT that completed, and after one that failed at each step (k counts from 0). -/
def Obligations.InitLeavesTheControllerPage : Prop :=
  ∀ s : State, s.cfg.regMode ≠ s.cfg.regCmd →
    (s.BusOk 9 → ∃ t, exec .init s = .next t ∧ t.page = some 0x00) ∧
    (∀ k, k = 0 ∨ k = 6 ∨ k = 8 → BusFailsAt s k → ∃ t, exec .init s = .next t ∧ t.page = none) ∧
    (∀ k, 1 ≤ k → k ≤ 5 → BusFailsAt s k → s.cfg.regFrame ≠ s.cfg.regCmd → s.cfg.regNullA ≠ s.cfg.regCmd →
      s.cfg.regNullB ≠ s.cfg.regCmd → (0x0a : Byte) ≠ s.cfg.regCmd →
        ∃ t, exec .init s = .next t ∧ t.page = some s.cfg.pageFunction) ∧
    (BusFailsAt s 7 → ∃ t, exec .init s = .next t ∧ t.page = some 0x00)

/-! ## The bus, the trace, the page -/

/-- Spec 30 R62: the byte lists each command puts on the bus, in order, each to DEV_ADDR: none for MAP and for an illegal word, one for WREG, WBLK
and DRAW, a beginning of the nine for INIT. -/
def Obligations.EachCommandPutsItsBytesOnTheBus : Prop :=
  ∀ s t : State,
    (∀ reg val, exec (.wreg reg val) s = .next t → ∃ o, t.trace = s.trace ++ [⟨s.cfg.devAddr, [reg, val], o⟩]) ∧
    (∀ reg len, legalLength s.cfg len = true → exec (.wblk reg len) s = .next t →
      ∃ o bs, t.trace = s.trace ++ [⟨s.cfg.devAddr, reg :: bs, o⟩] ∧ bs.length = len.toNat ∧
        ∀ i, i < len.toNat → bs[i]? = s.pbuf.read (1 + i)) ∧
    (exec .map s = .next t → t.trace = s.trace) ∧
    (exec .draw s = .next t →
      ∃ o bs, t.trace = s.trace ++ [⟨s.cfg.devAddr, s.cfg.regImage :: bs, o⟩] ∧ bs.length = s.cfg.bufferSize ∧
        ∀ i, i < s.cfg.bufferSize → bs[i]? = t.pbuf.read (1 + i)) ∧
    (exec .init s = .next t →
      ∃ recs, t.trace = s.trace ++ recs ∧ recs.map (·.bytes) <+: initSequence s.cfg ∧ ∀ r ∈ recs, r.addr = s.cfg.devAddr) ∧
    (∀ w, IllegalByR57 s.cfg w → writeCmd w s = .next t → t.trace = s.trace)

/-- Spec 60 R95: BUS_ERROR comes exactly from a transaction of this command that failed, its last; never from MAP and never from an illegal
word. -/
def Obligations.BusErrorComesOnlyFromAFailedTransaction : Prop :=
  ∀ (s t : State) (w : Word), writeCmd w s = .next t →
    (t.result = 1 ↔ ∃ recs last, t.trace = s.trace ++ recs ++ [last] ∧ last.outcome = .fail) ∧
    (decode s.cfg w = .ok .map → t.result ≠ 1) ∧ (IllegalByR57 s.cfg w → t.result ≠ 1)

/-- Spec 20 R46, 60 R93 (c): a command whose transaction is never answered never completes, the named stop `busNeverAnswers` (log 7); MAP and an
illegal word do not wait for the bus. -/
def Obligations.ABusThatNeverAnswersStopsTheCommand : Prop :=
  (∀ (s : State) (reg val : Byte), s.busIn.head? = some .never → exec (.wreg reg val) s = .fault .busNeverAnswers) ∧
  (∀ (s : State) (reg len : Byte), s.busIn.head? = some .never → legalLength s.cfg len = true → s.ReadyToSend len.toNat →
    exec (.wblk reg len) s = .fault .busNeverAnswers) ∧
  (∀ s : State, s.busIn.head? = some .never → s.ReadyToMap → exec .draw s = .fault .busNeverAnswers) ∧
  (∀ s : State, ¬ BusAnswersUpTo s 9 → exec .init s = .fault .busNeverAnswers) ∧
  (∀ s : State, exec .map s ≠ .fault .busNeverAnswers) ∧
  (∀ (s : State) (w : Word), IllegalByR57 s.cfg w → writeCmd w s ≠ .fault .busNeverAnswers)

/-- Spec 10 R29: the page a trace leaves: `p` exactly where a 2-byte write of `p` to REG_CMD at DEV_ADDR returned ok and no later record's bytes
begin with REG_CMD; else UNKNOWN. -/
def Obligations.ControllerPageIsTheLastSelectorWrite : Prop :=
  ∀ (c : Config) (trace : List BusRecord) (p : Byte),
    ctlPage c trace = some p ↔
      ∃ before after, trace = before ++ [⟨c.devAddr, [c.regCmd, p], .ok⟩] ++ after ∧ ∀ r ∈ after, r.bytes.head? ≠ some c.regCmd

/-! ## The host window -/

/-- Spec 20 R37: host byte writes and reads of the two buffer windows. -/
def Obligations.HostByteAccessesReachTheirCell : Prop :=
  ∀ (s : State) (rest : List HostEvent) (off : Offset) (i : Nat), s.cfg.valid = true →
    (i < s.cfg.width * s.cfg.height → off.toNat = i →
      (∀ b, s.hostIn = .st8 off b :: rest →
        ∃ t, step s = .next t ∧ t.lbuf.read i = some b ∧ (∀ k, k ≠ i → t.lbuf.read k = s.lbuf.read k) ∧ t.pbuf = s.pbuf ∧
          t.status = s.status ∧ t.cfg = s.cfg ∧ t.hostIn = rest ∧ t.hostOut = s.hostOut ∧ BusSideKept s t ∧ t.byteDraws = s.byteDraws) ∧
      (∀ v, s.hostIn = .ld8 off :: rest → s.lbuf.read i = some v →
        step s = .next { s with hostIn := rest, hostOut := s.hostOut ++ [.byte v] }) ∧
      (s.hostIn = .ld8 off :: rest → s.lbuf.read i = none → step s = .fault (.unwritten .lbuf i))) ∧
    (i ≤ s.cfg.bufferSize → off.toNat = 0x100 + i →
      (∀ b, s.hostIn = .st8 off b :: rest →
        ∃ t, step s = .next t ∧ t.pbuf.read i = some b ∧ (∀ k, k ≠ i → t.pbuf.read k = s.pbuf.read k) ∧ t.lbuf = s.lbuf ∧
          t.status = s.status ∧ t.cfg = s.cfg ∧ t.hostIn = rest ∧ t.hostOut = s.hostOut ∧ BusSideKept s t ∧ t.byteDraws = s.byteDraws) ∧
      (∀ v, s.hostIn = .ld8 off :: rest → s.pbuf.read i = some v →
        step s = .next { s with hostIn := rest, hostOut := s.hostOut ++ [.byte v] }) ∧
      (s.hostIn = .ld8 off :: rest → s.pbuf.read i = none → step s = .fault (.unwritten .pbuf i)))

/-- Spec 20 R38: the host accesses that are refused, each for its reason: a reserved offset, a buffer access wider than one byte (or of another
width), a CMD or STATUS access that is not an aligned 32-bit access, a read of CMD. The spec refuses each and names no code: which
reason is named where several apply is the model's choice (log 17), and so is one event for every other width (log 13). -/
def Obligations.HostAccessesWithoutMeaningAreRefused : Prop :=
  ∀ (s : State) (rest : List HostEvent) (e : HostEvent) (off : Offset), s.cfg.valid = true → s.hostIn = e :: rest →
    (ReservedOffset s.cfg off → AccessAt off e → step s = .refused (.reservedOffset off)) ∧
    (BufferOffset s.cfg off → WideAccessAt off e → step s = .refused (.bufferWidth off)) ∧
    (0x200 ≤ off.toNat → off.toNat ≤ 0x207 → NotWordAccessAt off e → step s = .refused (.registerAccess off)) ∧
    (0x200 ≤ off.toNat → off.toNat ≤ 0x207 → off ≠ 0x200 → off ≠ 0x204 → WideAccessAt off e →
      step s = .refused (.registerAccess off)) ∧
    (e = .ld32 0x200 → step s = .refused .cmdRead)

/-- Spec 10 R26: STATUS as the host reads it (RESULT in bits 1:0, OOB in bit 8, all else 0, no side effect) and writes it (OOB cleared where bit 8
is 1, nothing else changed); what sets OOB; and its value at reset. -/
def Obligations.StatusReadsWholeAndClearsOobByOne : Prop :=
  (∀ (s : State) (rest : List HostEvent), s.cfg.valid = true → s.hostIn = .ld32 0x204 :: rest →
    ∃ w : Word, step s = .next { s with hostIn := rest, hostOut := s.hostOut ++ [.word w] } ∧
      w.extractLsb' 0 2 = s.result ∧ w.getLsbD 8 = s.oob ∧ ∀ i, 2 ≤ i → i ≠ 8 → w.getLsbD i = false) ∧
  (∀ (s : State) (rest : List HostEvent) (v : Word), s.cfg.valid = true → s.hostIn = .st32 0x204 v :: rest →
    ∃ t, step s = .next t ∧ t.result = s.result ∧ (v.getLsbD 8 = true → t.oob = false) ∧ (v.getLsbD 8 = false → t.oob = s.oob) ∧
      (∀ i, 2 ≤ i → i ≠ 8 → t.statusWord.getLsbD i = false) ∧ t.lbuf = s.lbuf ∧ t.pbuf = s.pbuf ∧ t.cfg = s.cfg ∧ t.hostIn = rest ∧
      t.hostOut = s.hostOut ∧ BusSideKept s t) ∧
  (∀ s t : State, exec .map s = .next t ∨ exec .draw s = .next t → t.oob = (s.oob || hasOob s.cfg)) ∧
  (∀ s t : State, s.result ≠ 3 → step s = .next t → t.result ≠ 3) ∧ State.reset.statusWord = 0

/-- Spec 70 R124, 60 R103: a host read of STATUS right after a CMD write completes and sees that command's RESULT. -/
def Obligations.StatusReadSeesTheCommandsResult : Prop :=
  ∀ (s t : State) (w : Word) (rest : List HostEvent), s.hostIn = .st32 cmdOffset w :: .ld32 statusOffset :: rest → step s = .next t →
    ∃ u v, step t = .next u ∧ u.hostOut = s.hostOut ++ [.word v] ∧ v.extractLsb' 0 2 = t.result ∧ u.hostIn = rest

/-! ## Invariants and frames over all steps -/

/-- Spec 10 R34, 70 R115: the state after reset meets the machine's invariant (the canonical form of a buffer is the model's, log 9). -/
def Obligations.ResetMeetsTheInvariants : Prop := State.reset.Inv

/-- Spec 10 R21, R22: every step keeps both buffers within their cells and in canonical form (the form is the model's, log 9). -/
def Obligations.StepKeepsTheBuffersCanonical : Prop :=
  ∀ s t : State, s.BuffersOk → step s = .next t → t.BuffersOk

/-- Spec 10 R26, R27: every step keeps STATUS legal: reserved bits 0, RESULT never 3. -/
def Obligations.StepKeepsStatusLegal : Prop :=
  ∀ s t : State, s.StatusOk → step s = .next t → t.StatusOk

/-- Spec 20 R43, R47: every step keeps every record of TRACE a transaction PAM may issue: to DEV_ADDR, of 2 to BUFFER_SIZE+1 bytes. -/
def Obligations.StepKeepsTransactionsLegal : Prop :=
  ∀ s t : State, s.TraceOk → step s = .next t → t.TraceOk

/-- Spec 10 R28, 42 R87: TRACE only grows, by at most nine records a step, until a reset. -/
def Obligations.TraceOnlyGrows : Prop :=
  ∀ s t : State, step s = .next t → ¬ s.resetNext → ∃ recs, t.trace = s.trace ++ recs ∧ recs.length ≤ 9

/-- Spec 60 R97: OOB is sticky: no step clears it but a host write of 1 to STATUS bit 8, or a reset. -/
def Obligations.OobIsSticky : Prop :=
  ∀ s t : State, s.oob = true → step s = .next t → ¬ s.resetNext → ¬ s.clearsOobNext → t.oob = true

/-- Spec 10 R24: a written cell stays written until a reset. -/
def Obligations.WrittenCellsStayWritten : Prop :=
  ∀ (s t : State) (b : Buffer) (i : Nat), step s = .next t → ¬ s.resetNext → (s.readCell b i).isSome → (t.readCell b i).isSome

/-- Spec 10 R21: PAM never writes LBUF: no command does, and a step changes a cell only by a host byte write of it or a reset. -/
def Obligations.OnlyTheHostWritesLbuf : Prop :=
  (∀ (i : Instr) (s t : State), exec i s = .next t → t.lbuf = s.lbuf) ∧
  (∀ (s t : State) (k : Nat), step s = .next t → ¬ s.resetNext →
    (∀ (off : Offset) (b : Byte), s.hostIn.head? = some (.st8 off b) → off.toNat ≠ k) → t.lbuf.read k = s.lbuf.read k)

/-- Spec 10 R22, 40 R63 to R65, 41 R68, 42 R84, R86: the frame of every command: which PBUF cells it may write, and that OOB, RESULT's register and
the host's side are otherwise kept. -/
def Obligations.CommandsWriteOnlyTheirCells : Prop :=
  ∀ (s t : State),
    (∀ reg val, exec (.wreg reg val) s = .next t → t.pbuf = s.pbuf ∧ t.oob = s.oob) ∧
    (∀ reg len, exec (.wblk reg len) s = .next t → (∀ i, i ≠ 0 → t.pbuf.read i = s.pbuf.read i) ∧ t.oob = s.oob) ∧
    (exec .map s = .next t → (∀ i, i = 0 ∨ s.cfg.bufferSize < i → t.pbuf.read i = s.pbuf.read i) ∧ BusSideKept s t) ∧
    (exec .draw s = .next t → ∀ i, s.cfg.bufferSize < i → t.pbuf.read i = s.pbuf.read i) ∧
    (exec .init s = .next t → t.pbuf = s.pbuf ∧ t.oob = s.oob) ∧
    (∀ i, exec i s = .next t → HostSideKept s t ∧ t.lbuf = s.lbuf)

/-! ## The assembler -/

/-- Spec 30 R61: the pseudo-instructions and their expansions; `run` is the word 0x01000A01. -/
def Obligations.PseudoInstructionsExpandToWreg : Prop :=
  ∀ (c : Config) (p reg : Operand),
    assemble c (.selpage p) = assemble c (.wreg (.param .regCmd) p) ∧
    assemble c (.zero reg) = assemble c (.wreg reg (.num 0)) ∧
    assemble c .run = assemble c (.wreg (.param .regShutdown) (.param .shutdownRun)) ∧
    assemble c .run = some (.st32 0x200 0x01000A01)

/-- Spec 30 R60: a command line is a write of its word to CMD, and an operand that does not fit its field is refused. -/
def Obligations.AssemblerEmitsTheWordOrRefuses : Prop :=
  ∀ (c : Config) (a b : Operand) (e : HostEvent),
    (assemble c (.wreg a b) = some e ↔
      a.value c < 256 ∧ b.value c < 256 ∧
        e = .st32 0x200 ((0x01 : Byte) ++ (0x00 : Byte) ++ BitVec.ofNat 8 (a.value c) ++ BitVec.ofNat 8 (b.value c))) ∧
    (assemble c (.wblk a b) = some e ↔
      a.value c < 256 ∧ 1 ≤ b.value c ∧ b.value c ≤ c.bufferSize ∧ b.value c < 256 ∧
        e = .st32 0x200 ((0x02 : Byte) ++ BitVec.ofNat 8 (b.value c) ++ BitVec.ofNat 8 (a.value c) ++ (0x00 : Byte))) ∧
    (assemble c (.st8 a b) = some e ↔
      a.value c < 4096 ∧ b.value c < 256 ∧ e = .st8 (BitVec.ofNat 12 (a.value c)) (BitVec.ofNat 8 (b.value c))) ∧
    (assemble c (.ld8 a) = some e ↔ a.value c < 4096 ∧ e = .ld8 (BitVec.ofNat 12 (a.value c))) ∧
    (assemble c (.st32 a b) = some e ↔
      a.value c < 4096 ∧ b.value c < 2 ^ 32 ∧ e = .st32 (BitVec.ofNat 12 (a.value c)) (BitVec.ofNat 32 (b.value c))) ∧
    (assemble c (.ld32 a) = some e ↔ a.value c < 4096 ∧ e = .ld32 (BitVec.ofNat 12 (a.value c))) ∧
    (assemble c .map = some (.st32 0x200 0x03000000) ∧ assemble c .draw = some (.st32 0x200 0x04000000) ∧
      assemble c .init = some (.st32 0x200 0x05000000))
end

