-- ==== Sys2Proof/Laws/State.lean ====
section
/-! SUPPORT. What each named update of State leaves in each field: one lemma per field per update. -/

namespace Sys2Proof.Machine

/-! ## State.setResult -/

@[simp] theorem State.setResult_cfg (s : State) (r : Result) : (s.setResult r).cfg = s.cfg := rfl

@[simp] theorem State.setResult_lbuf (s : State) (r : Result) : (s.setResult r).lbuf = s.lbuf := rfl

@[simp] theorem State.setResult_pbuf (s : State) (r : Result) : (s.setResult r).pbuf = s.pbuf := rfl

@[simp] theorem State.setResult_status (s : State) (r : Result) : (s.setResult r).status = (s.status &&& oobMask) ||| r.code := rfl

@[simp] theorem State.setResult_trace (s : State) (r : Result) : (s.setResult r).trace = s.trace := rfl

@[simp] theorem State.setResult_hostIn (s : State) (r : Result) : (s.setResult r).hostIn = s.hostIn := rfl

@[simp] theorem State.setResult_hostOut (s : State) (r : Result) : (s.setResult r).hostOut = s.hostOut := rfl

@[simp] theorem State.setResult_busIn (s : State) (r : Result) : (s.setResult r).busIn = s.busIn := rfl

@[simp] theorem State.setResult_busDraws (s : State) (r : Result) : (s.setResult r).busDraws = s.busDraws := rfl

@[simp] theorem State.setResult_byteDraws (s : State) (r : Result) : (s.setResult r).byteDraws = s.byteDraws := rfl

/-! ## State.setOob -/

@[simp] theorem State.setOob_cfg (s : State) : (s.setOob).cfg = s.cfg := rfl

@[simp] theorem State.setOob_lbuf (s : State) : (s.setOob).lbuf = s.lbuf := rfl

@[simp] theorem State.setOob_pbuf (s : State) : (s.setOob).pbuf = s.pbuf := rfl

@[simp] theorem State.setOob_status (s : State) : (s.setOob).status = (s.status &&& resultMask) ||| oobMask := rfl

@[simp] theorem State.setOob_trace (s : State) : (s.setOob).trace = s.trace := rfl

@[simp] theorem State.setOob_hostIn (s : State) : (s.setOob).hostIn = s.hostIn := rfl

@[simp] theorem State.setOob_hostOut (s : State) : (s.setOob).hostOut = s.hostOut := rfl

@[simp] theorem State.setOob_busIn (s : State) : (s.setOob).busIn = s.busIn := rfl

@[simp] theorem State.setOob_busDraws (s : State) : (s.setOob).busDraws = s.busDraws := rfl

@[simp] theorem State.setOob_byteDraws (s : State) : (s.setOob).byteDraws = s.byteDraws := rfl

/-! ## State.writeStatus -/

@[simp] theorem State.writeStatus_cfg (s : State) (v : Word) : (s.writeStatus v).cfg = s.cfg := rfl

@[simp] theorem State.writeStatus_lbuf (s : State) (v : Word) : (s.writeStatus v).lbuf = s.lbuf := rfl

@[simp] theorem State.writeStatus_pbuf (s : State) (v : Word) : (s.writeStatus v).pbuf = s.pbuf := rfl

@[simp] theorem State.writeStatus_status (s : State) (v : Word) : (s.writeStatus v).status = if v.getLsbD 8 then s.status &&& resultMask else s.status &&& statusMask := rfl

@[simp] theorem State.writeStatus_trace (s : State) (v : Word) : (s.writeStatus v).trace = s.trace := rfl

@[simp] theorem State.writeStatus_hostIn (s : State) (v : Word) : (s.writeStatus v).hostIn = s.hostIn := rfl

@[simp] theorem State.writeStatus_hostOut (s : State) (v : Word) : (s.writeStatus v).hostOut = s.hostOut := rfl

@[simp] theorem State.writeStatus_busIn (s : State) (v : Word) : (s.writeStatus v).busIn = s.busIn := rfl

@[simp] theorem State.writeStatus_busDraws (s : State) (v : Word) : (s.writeStatus v).busDraws = s.busDraws := rfl

@[simp] theorem State.writeStatus_byteDraws (s : State) (v : Word) : (s.writeStatus v).byteDraws = s.byteDraws := rfl

/-! ## State.record -/

@[simp] theorem State.record_cfg (s : State) (bytes : List Byte) : (s.record bytes).cfg = s.cfg := rfl

@[simp] theorem State.record_lbuf (s : State) (bytes : List Byte) : (s.record bytes).lbuf = s.lbuf := rfl

@[simp] theorem State.record_pbuf (s : State) (bytes : List Byte) : (s.record bytes).pbuf = s.pbuf := rfl

@[simp] theorem State.record_status (s : State) (bytes : List Byte) : (s.record bytes).status = s.status := rfl

@[simp] theorem State.record_trace (s : State) (bytes : List Byte) : (s.record bytes).trace = s.trace ++ [⟨s.cfg.devAddr, bytes, s.nextOutcome⟩] := rfl

@[simp] theorem State.record_hostIn (s : State) (bytes : List Byte) : (s.record bytes).hostIn = s.hostIn := rfl

@[simp] theorem State.record_hostOut (s : State) (bytes : List Byte) : (s.record bytes).hostOut = s.hostOut := rfl

@[simp] theorem State.record_busIn (s : State) (bytes : List Byte) : (s.record bytes).busIn = s.busIn.tail := rfl

@[simp] theorem State.record_busDraws (s : State) (bytes : List Byte) : (s.record bytes).busDraws = s.busDraws + 1 := rfl

@[simp] theorem State.record_byteDraws (s : State) (bytes : List Byte) : (s.record bytes).byteDraws = s.byteDraws := rfl

/-! ## State.resetBlock -/

@[simp] theorem State.resetBlock_cfg (s : State) : (s.resetBlock).cfg = s.cfg := rfl

@[simp] theorem State.resetBlock_lbuf (s : State) : (s.resetBlock).lbuf = [] := rfl

@[simp] theorem State.resetBlock_pbuf (s : State) : (s.resetBlock).pbuf = [] := rfl

@[simp] theorem State.resetBlock_status (s : State) : (s.resetBlock).status = 0 := rfl

@[simp] theorem State.resetBlock_trace (s : State) : (s.resetBlock).trace = [] := rfl

@[simp] theorem State.resetBlock_hostIn (s : State) : (s.resetBlock).hostIn = s.hostIn := rfl

@[simp] theorem State.resetBlock_hostOut (s : State) : (s.resetBlock).hostOut = s.hostOut := rfl

@[simp] theorem State.resetBlock_busIn (s : State) : (s.resetBlock).busIn = s.busIn := rfl

@[simp] theorem State.resetBlock_busDraws (s : State) : (s.resetBlock).busDraws = s.busDraws := rfl

@[simp] theorem State.resetBlock_byteDraws (s : State) : (s.resetBlock).byteDraws = s.byteDraws := rfl

/-! ## State.reply -/

@[simp] theorem State.reply_cfg (s : State) (r : HostReply) : (s.reply r).cfg = s.cfg := rfl

@[simp] theorem State.reply_lbuf (s : State) (r : HostReply) : (s.reply r).lbuf = s.lbuf := rfl

@[simp] theorem State.reply_pbuf (s : State) (r : HostReply) : (s.reply r).pbuf = s.pbuf := rfl

@[simp] theorem State.reply_status (s : State) (r : HostReply) : (s.reply r).status = s.status := rfl

@[simp] theorem State.reply_trace (s : State) (r : HostReply) : (s.reply r).trace = s.trace := rfl

@[simp] theorem State.reply_hostIn (s : State) (r : HostReply) : (s.reply r).hostIn = s.hostIn := rfl

@[simp] theorem State.reply_hostOut (s : State) (r : HostReply) : (s.reply r).hostOut = s.hostOut ++ [r] := rfl

@[simp] theorem State.reply_busIn (s : State) (r : HostReply) : (s.reply r).busIn = s.busIn := rfl

@[simp] theorem State.reply_busDraws (s : State) (r : HostReply) : (s.reply r).busDraws = s.busDraws := rfl

@[simp] theorem State.reply_byteDraws (s : State) (r : HostReply) : (s.reply r).byteDraws = s.byteDraws := rfl

/-! ## State.oobRead -/

@[simp] theorem State.oobRead_cfg (s : State) (j : Nat) (idx : Int) : (s.oobRead j idx).cfg = s.cfg := rfl

@[simp] theorem State.oobRead_lbuf (s : State) (j : Nat) (idx : Int) : (s.oobRead j idx).lbuf = s.lbuf := rfl

@[simp] theorem State.oobRead_pbuf (s : State) (j : Nat) (idx : Int) : (s.oobRead j idx).pbuf = s.pbuf.write (1 + j) (Config.draw s.byteDraws j idx) := rfl

@[simp] theorem State.oobRead_status (s : State) (j : Nat) (idx : Int) : (s.oobRead j idx).status = (s.status &&& resultMask) ||| oobMask := rfl

@[simp] theorem State.oobRead_trace (s : State) (j : Nat) (idx : Int) : (s.oobRead j idx).trace = s.trace := rfl

@[simp] theorem State.oobRead_hostIn (s : State) (j : Nat) (idx : Int) : (s.oobRead j idx).hostIn = s.hostIn := rfl

@[simp] theorem State.oobRead_hostOut (s : State) (j : Nat) (idx : Int) : (s.oobRead j idx).hostOut = s.hostOut := rfl

@[simp] theorem State.oobRead_busIn (s : State) (j : Nat) (idx : Int) : (s.oobRead j idx).busIn = s.busIn := rfl

@[simp] theorem State.oobRead_busDraws (s : State) (j : Nat) (idx : Int) : (s.oobRead j idx).busDraws = s.busDraws := rfl

@[simp] theorem State.oobRead_byteDraws (s : State) (j : Nat) (idx : Int) : (s.oobRead j idx).byteDraws = s.byteDraws + 1 := rfl

/-! ## State.clearPayload -/

@[simp] theorem State.clearPayload_cfg (s : State) : (s.clearPayload).cfg = s.cfg := rfl

@[simp] theorem State.clearPayload_lbuf (s : State) : (s.clearPayload).lbuf = s.lbuf := rfl

@[simp] theorem State.clearPayload_pbuf (s : State) : (s.clearPayload).pbuf = s.pbuf.fill 0x00 (payloadCells s.cfg.bufferSize) := rfl

@[simp] theorem State.clearPayload_status (s : State) : (s.clearPayload).status = s.status := rfl

@[simp] theorem State.clearPayload_trace (s : State) : (s.clearPayload).trace = s.trace := rfl

@[simp] theorem State.clearPayload_hostIn (s : State) : (s.clearPayload).hostIn = s.hostIn := rfl

@[simp] theorem State.clearPayload_hostOut (s : State) : (s.clearPayload).hostOut = s.hostOut := rfl

@[simp] theorem State.clearPayload_busIn (s : State) : (s.clearPayload).busIn = s.busIn := rfl

@[simp] theorem State.clearPayload_busDraws (s : State) : (s.clearPayload).busDraws = s.busDraws := rfl

@[simp] theorem State.clearPayload_byteDraws (s : State) : (s.clearPayload).byteDraws = s.byteDraws := rfl

/-! ## State.withFetchWord -/

@[simp] theorem State.withFetchWord_cfg (s : State) (nbits w : Nat) : (s.withFetchWord nbits w).cfg = s.cfg := rfl

@[simp] theorem State.withFetchWord_lbuf (s : State) (nbits w : Nat) : (s.withFetchWord nbits w).lbuf = s.lbuf := rfl

@[simp] theorem State.withFetchWord_pbuf (s : State) (nbits w : Nat) : (s.withFetchWord nbits w).pbuf = s.pbuf := rfl

@[simp] theorem State.withFetchWord_status (s : State) (nbits w : Nat) : (s.withFetchWord nbits w).status = s.status := rfl

@[simp] theorem State.withFetchWord_trace (s : State) (nbits w : Nat) : (s.withFetchWord nbits w).trace = s.trace := rfl

@[simp] theorem State.withFetchWord_hostIn (s : State) (nbits w : Nat) : (s.withFetchWord nbits w).hostIn = .st32 cmdOffset (BitVec.ofNat 32 (w % 2 ^ nbits)) :: s.hostIn := rfl

@[simp] theorem State.withFetchWord_hostOut (s : State) (nbits w : Nat) : (s.withFetchWord nbits w).hostOut = s.hostOut := rfl

@[simp] theorem State.withFetchWord_busIn (s : State) (nbits w : Nat) : (s.withFetchWord nbits w).busIn = s.busIn := rfl

@[simp] theorem State.withFetchWord_busDraws (s : State) (nbits w : Nat) : (s.withFetchWord nbits w).busDraws = s.busDraws := rfl

@[simp] theorem State.withFetchWord_byteDraws (s : State) (nbits w : Nat) : (s.withFetchWord nbits w).byteDraws = s.byteDraws := rfl

/-! ## State.writeCell -/

@[simp] theorem State.writeCell_cfg (s : State) (b : Buffer) (i : Nat) (v : Byte) : (s.writeCell b i v).cfg = s.cfg := by
  cases b <;> rfl

@[simp] theorem State.writeCell_lbuf_lbuf (s : State) (i : Nat) (v : Byte) : (s.writeCell .lbuf i v).lbuf = s.lbuf.write i v := rfl

@[simp] theorem State.writeCell_pbuf_lbuf (s : State) (i : Nat) (v : Byte) : (s.writeCell .pbuf i v).lbuf = s.lbuf := rfl

@[simp] theorem State.writeCell_lbuf_pbuf (s : State) (i : Nat) (v : Byte) : (s.writeCell .lbuf i v).pbuf = s.pbuf := rfl

@[simp] theorem State.writeCell_pbuf_pbuf (s : State) (i : Nat) (v : Byte) : (s.writeCell .pbuf i v).pbuf = s.pbuf.write i v := rfl

@[simp] theorem State.writeCell_status (s : State) (b : Buffer) (i : Nat) (v : Byte) : (s.writeCell b i v).status = s.status := by
  cases b <;> rfl

@[simp] theorem State.writeCell_trace (s : State) (b : Buffer) (i : Nat) (v : Byte) : (s.writeCell b i v).trace = s.trace := by
  cases b <;> rfl

@[simp] theorem State.writeCell_hostIn (s : State) (b : Buffer) (i : Nat) (v : Byte) : (s.writeCell b i v).hostIn = s.hostIn := by
  cases b <;> rfl

@[simp] theorem State.writeCell_hostOut (s : State) (b : Buffer) (i : Nat) (v : Byte) : (s.writeCell b i v).hostOut = s.hostOut := by
  cases b <;> rfl

@[simp] theorem State.writeCell_busIn (s : State) (b : Buffer) (i : Nat) (v : Byte) : (s.writeCell b i v).busIn = s.busIn := by
  cases b <;> rfl

@[simp] theorem State.writeCell_busDraws (s : State) (b : Buffer) (i : Nat) (v : Byte) : (s.writeCell b i v).busDraws = s.busDraws := by
  cases b <;> rfl

@[simp] theorem State.writeCell_byteDraws (s : State) (b : Buffer) (i : Nat) (v : Byte) : (s.writeCell b i v).byteDraws = s.byteDraws := by
  cases b <;> rfl

/-! ## Reading a buffer -/

@[simp] theorem State.readCell_lbuf (s : State) (i : Nat) : s.readCell .lbuf i = s.lbuf.read i := rfl

@[simp] theorem State.readCell_pbuf (s : State) (i : Nat) : s.readCell .pbuf i = s.pbuf.read i := rfl

end Sys2Proof.Machine
end

