-- ==== Sys2Proof/Laws/Status.lean ====
section
/-! SUPPORT. The fields of STATUS after each write of it (spec 10 R26, R27). -/

namespace Sys2Proof.Machine

@[simp] theorem State.result_setResult (s : State) (r : Result) : (s.setResult r).result = r.code.extractLsb' 0 2 := by
  apply BitVec.eq_of_getLsbD_eq
  intro i hi
  have h : i = 0 ∨ i = 1 := by omega
  obtain rfl | rfl := h <;> cases r <;> simp [State.result, Result.code, oobMask]

@[simp] theorem State.oob_setResult (s : State) (r : Result) : (s.setResult r).oob = s.oob := by
  cases r <;> simp [State.oob, Result.code, oobMask]

@[simp] theorem State.oob_setOob (s : State) : s.setOob.oob = true := by
  simp [State.oob, resultMask, oobMask]

@[simp] theorem State.result_setOob (s : State) : s.setOob.result = s.result := by
  apply BitVec.eq_of_getLsbD_eq
  intro i hi
  have h : i = 0 ∨ i = 1 := by omega
  obtain rfl | rfl := h <;> simp [State.result, resultMask, oobMask]

@[simp] theorem State.oob_writeStatus (s : State) (v : Word) : (s.writeStatus v).oob = (s.oob && !v.getLsbD 8) := by
  simp only [State.oob, State.writeStatus_status]
  split <;> simp_all [resultMask, statusMask]

@[simp] theorem State.result_writeStatus (s : State) (v : Word) : (s.writeStatus v).result = s.result := by
  apply BitVec.eq_of_getLsbD_eq
  intro i hi
  have h : i = 0 ∨ i = 1 := by omega
  simp only [State.result, State.writeStatus_status]
  obtain rfl | rfl := h <;> split <;> simp [resultMask, statusMask]

end Sys2Proof.Machine
end

