-- ==== Sys2Proof/Laws/Bus.lean ====
section
/-! SUPPORT. What the transactions of one command do, said once (spec 20 R47, 42 R88). -/

namespace Sys2Proof.Machine

/-- A command's transactions complete exactly where the bus does not stall, with the state `sendAll` gives. -/
theorem transact_next_iff {txs : List (List Byte)} {s t : State} :
    transact txs s = .next t ↔ s.busStalls txs.length = false ∧ t = State.sendAll txs s := by
  unfold transact
  cases h : s.busStalls txs.length
  · simp [eq_comm]
  · simp

/-- A command's transactions never refuse, and fault only where the bus stalls. -/
theorem transact_fault_iff {txs : List (List Byte)} {s : State} {f : Fault} :
    transact txs s = .fault f ↔ s.busStalls txs.length = true ∧ f = .busNeverAnswers := by
  unfold transact
  cases h : s.busStalls txs.length
  · simp
  · simp [eq_comm]

theorem State.busStalls_one (s : State) : s.busStalls 1 = true ↔ s.busIn.head? = some .never := by
  unfold State.busStalls
  rcases h : s.busIn with _ | ⟨a, rest⟩
  · simp
  · cases a <;> simp

theorem State.nextOutcome_congr {s t : State} (h1 : s.busIn = t.busIn) (h2 : s.busDraws = t.busDraws) :
    s.nextOutcome = t.nextOutcome := by
  simp only [State.nextOutcome, h1, h2]

/-- The end of a command of one transaction. -/
theorem State.sendAll_one (bytes : List Byte) (s : State) :
    State.sendAll [bytes] s = (s.record bytes).setResult (Result.ofOutcome s.nextOutcome) := by
  simp only [State.sendAll]
  cases s.nextOutcome <;> rfl

/-- Issuing transactions changes TRACE, RESULT and the bus's own fields only. -/
theorem State.sendAll_frame (txs : List (List Byte)) (s : State) :
    (State.sendAll txs s).cfg = s.cfg ∧ (State.sendAll txs s).lbuf = s.lbuf ∧ (State.sendAll txs s).pbuf = s.pbuf ∧
    (State.sendAll txs s).hostIn = s.hostIn ∧ (State.sendAll txs s).hostOut = s.hostOut ∧
    (State.sendAll txs s).byteDraws = s.byteDraws ∧ (State.sendAll txs s).oob = s.oob := by
  induction txs generalizing s with
  | nil => exact ⟨rfl, rfl, rfl, rfl, rfl, rfl, by simp [State.sendAll]⟩
  | cons b rest ih =>
    simp only [State.sendAll]
    cases s.nextOutcome with
    | ok => exact ih (s.record b)
    | fail => exact ⟨rfl, rfl, rfl, rfl, rfl, rfl, by rw [State.oob_setResult]; rfl⟩

/-- The records a command's transactions append: those issued, in order, all to DEV_ADDR; either all of them with ok and RESULT = OK, or
those up to the first fail and RESULT = BUS_ERROR. -/
def IssuedRecords (c : Config) (txs : List (List Byte)) (recs : List BusRecord) (result : Result) : Prop :=
  recs.map (·.bytes) <+: txs ∧ (∀ r ∈ recs, r.addr = c.devAddr) ∧
  ((recs.length = txs.length ∧ (∀ r ∈ recs, r.outcome = .ok) ∧ result = .ok) ∨
   (∃ front last, recs = front ++ [last] ∧ (∀ r ∈ front, r.outcome = .ok) ∧ last.outcome = .fail ∧ result = .busError))

theorem State.sendAll_trace (txs : List (List Byte)) (s : State) :
    ∃ recs result, (State.sendAll txs s).trace = s.trace ++ recs ∧ (State.sendAll txs s).result = result.code.extractLsb' 0 2 ∧
      IssuedRecords s.cfg txs recs result := by
  induction txs generalizing s with
  | nil => exact ⟨[], .ok, by simp [State.sendAll], by simp [State.sendAll], by simp, by simp, .inl (by simp)⟩
  | cons b rest ih =>
    simp only [State.sendAll]
    cases ho : s.nextOutcome with
    | fail =>
      refine ⟨[⟨s.cfg.devAddr, b, .fail⟩], .busError, by simp [ho], by simp [Result.ofOutcome], by simp, by simp, .inr ?_⟩
      exact ⟨[], _, rfl, by simp, rfl, rfl⟩
    | ok =>
      obtain ⟨recs, result, htrace, hresult, hpre, haddr, hend⟩ := ih (s.record b)
      refine ⟨⟨s.cfg.devAddr, b, .ok⟩ :: recs, result, by simp [htrace, ho], hresult, ?_, ?_, ?_⟩
      · simpa using hpre
      · simpa using haddr
      · obtain ⟨hlen, hok, hr⟩ | ⟨front, last, rfl, hok, hl, hr⟩ := hend
        · exact .inl ⟨by simp [hlen], by simpa using hok, hr⟩
        · exact .inr ⟨⟨s.cfg.devAddr, b, .ok⟩ :: front, last, rfl, by simpa using hok, hl, hr⟩

/-- Everything a command's transactions do, where the command completes. -/
theorem transact_next {txs : List (List Byte)} {s t : State} (h : transact txs s = .next t) :
    t.cfg = s.cfg ∧ t.lbuf = s.lbuf ∧ t.pbuf = s.pbuf ∧ t.hostIn = s.hostIn ∧ t.hostOut = s.hostOut ∧ t.byteDraws = s.byteDraws ∧
    t.oob = s.oob ∧
    ∃ recs result, t.trace = s.trace ++ recs ∧ t.result = result.code.extractLsb' 0 2 ∧ IssuedRecords s.cfg txs recs result := by
  obtain ⟨-, rfl⟩ := transact_next_iff.1 h
  obtain ⟨h1, h2, h3, h4, h5, h6, h7⟩ := State.sendAll_frame txs s
  exact ⟨h1, h2, h3, h4, h5, h6, h7, State.sendAll_trace txs s⟩

end Sys2Proof.Machine
end

