-- ==== Sys2Proof/Laws/Encoding.lean ====
section
/-! SUPPORT. The four fields of a command word and the word of four fields are inverse (spec 30 R53). -/

namespace Sys2Proof

theorem getLsbD_wordOfFields (opc len reg val : Byte) (i : Nat) :
    (wordOfFields opc len reg val).getLsbD i =
      if i < 8 then val.getLsbD i else if i < 16 then reg.getLsbD (i - 8) else if i < 24 then len.getLsbD (i - 16)
      else opc.getLsbD (i - 24) := by
  unfold wordOfFields
  rw [BitVec.getLsbD_append, BitVec.getLsbD_append, BitVec.getLsbD_append]
  simp only [Nat.sub_sub]
  split_ifs <;> first | rfl | (exfalso; omega)

@[simp] theorem opcField_wordOfFields (opc len reg val : Byte) : opcField (wordOfFields opc len reg val) = opc := by
  apply BitVec.eq_of_getLsbD_eq
  intro i hi
  simp [opcField, getLsbD_wordOfFields, hi, show ¬ (24 + i < 8) by omega, show ¬ (24 + i < 16) by omega]

@[simp] theorem lenField_wordOfFields (opc len reg val : Byte) : lenField (wordOfFields opc len reg val) = len := by
  apply BitVec.eq_of_getLsbD_eq
  intro i hi
  simp [lenField, getLsbD_wordOfFields, hi, show ¬ (16 + i < 8) by omega, show 16 + i < 24 by omega]

@[simp] theorem regField_wordOfFields (opc len reg val : Byte) : regField (wordOfFields opc len reg val) = reg := by
  apply BitVec.eq_of_getLsbD_eq
  intro i hi
  simp [regField, getLsbD_wordOfFields, hi, show 8 + i < 16 by omega]

@[simp] theorem valField_wordOfFields (opc len reg val : Byte) : valField (wordOfFields opc len reg val) = val := by
  apply BitVec.eq_of_getLsbD_eq
  intro i hi
  simp [valField, getLsbD_wordOfFields, hi]

/-- A word is the word of its own fields. -/
theorem wordOfFields_fields (w : Word) : wordOfFields (opcField w) (lenField w) (regField w) (valField w) = w := by
  apply BitVec.eq_of_getLsbD_eq
  intro i hi
  rw [getLsbD_wordOfFields]
  unfold opcField lenField regField valField
  simp only [BitVec.getLsbD_extractLsb']
  split_ifs with h1 h2 h3
  · simp [h1]
  · simp [show i - 8 < 8 by omega, show 8 + (i - 8) = i by omega]
  · simp [show i - 16 < 8 by omega, show 16 + (i - 16) = i by omega]
  · simp [show i - 24 < 8 by omega, show 24 + (i - 24) = i by omega]

/-- The low 24 bits are zero exactly where LEN, REG and VAL are (spec 30 R57 (b), R58). -/
theorem operandBits_eq_zero_iff (w : Word) : operandBits w = 0 ↔ lenField w = 0 ∧ regField w = 0 ∧ valField w = 0 := by
  have bit : ∀ i, i < 24 → (operandBits w = 0 → w.getLsbD i = false) := fun i hi h => by
    have := congrArg (fun b : BitVec 24 => b.getLsbD i) h
    simpa [operandBits, hi] using this
  constructor
  · intro h
    refine ⟨?_, ?_, ?_⟩ <;> apply BitVec.eq_of_getLsbD_eq <;> intro i hi
    · simp [lenField, bit (16 + i) (by omega) h]
    · simp [regField, bit (8 + i) (by omega) h]
    · simp [valField, bit i (by omega) h]
  · rintro ⟨h1, h2, h3⟩
    apply BitVec.eq_of_getLsbD_eq
    intro i hi
    rw [operandBits, BitVec.getLsbD_extractLsb', Nat.zero_add, ← wordOfFields_fields w, getLsbD_wordOfFields, h1, h2, h3]
    split_ifs <;> simp

@[simp] theorem operandBits_wordOfFields_zero (opc : Byte) : operandBits (wordOfFields opc 0 0 0) = 0 :=
  (operandBits_eq_zero_iff _).2 (by simp)

end Sys2Proof
end

