-- ==== Sys2Proof/Laws/Memory.lean ====
section
/-! SUPPORT. The laws of the buffer cells: a read after a write, the canonical form, filling, and reading a list of cells. -/

namespace Sys2Proof.Machine

@[simp] theorem Memory.read_nil (i : Nat) : Memory.read [] i = none := rfl

theorem Memory.read_write_same (m : Memory) (i : Nat) (v : Byte) : (m.write i v).read i = some v := by
  induction m with
  | nil => simp [Memory.write, Memory.read]
  | cons c rest ih =>
    obtain ⟨k, b⟩ := c
    by_cases h1 : i < k
    · simp [Memory.write, Memory.read, h1]
    · by_cases h2 : i = k
      · simp [Memory.write, Memory.read, h2]
      · simp [Memory.write, Memory.read, h1, h2, Ne.symm h2, ih]

theorem Memory.read_write_other (m : Memory) {i j : Nat} (v : Byte) (h : j ≠ i) : (m.write i v).read j = m.read j := by
  induction m with
  | nil => simp [Memory.write, Memory.read, Memory.unlisted, Ne.symm h]
  | cons c rest ih =>
    obtain ⟨k, b⟩ := c
    by_cases h1 : i < k
    · simp [Memory.write, Memory.read, h1, Ne.symm h]
    · by_cases h2 : i = k
      · subst h2
        simp [Memory.write, Memory.read, Ne.symm h]
      · simp [Memory.write, Memory.read, h1, h2, ih]

/-- A read after a write, both cases. -/
theorem Memory.read_write (m : Memory) (i j : Nat) (v : Byte) :
    (m.write i v).read j = if j = i then some v else m.read j := by
  by_cases h : j = i
  · simp [h, Memory.read_write_same]
  · simp [h, Memory.read_write_other m v h]

/-- The cells a write lists: the old ones and the one written. -/
theorem Memory.mem_write {m : Memory} {i : Nat} {v : Byte} {x : Host.Cell} (h : x ∈ m.write i v) :
    x = (i, v) ∨ x ∈ m := by
  induction m with
  | nil => simpa [Memory.write] using h
  | cons c rest ih =>
    obtain ⟨k, b⟩ := c
    by_cases h1 : i < k
    · simpa [Memory.write, h1] using h
    · by_cases h2 : i = k
      · have h' : x = (i, v) ∨ x ∈ rest := by simpa [Memory.write, h1, h2] using h
        exact h'.imp_right (List.mem_cons_of_mem _)
      · have h' : x = (k, b) ∨ x ∈ Memory.write rest i v := by simpa [Memory.write, h1, h2] using h
        obtain rfl | h' := h'
        · exact .inr List.mem_cons_self
        · exact (ih h').imp_right (List.mem_cons_of_mem _)

/-- A write keeps the canonical form. -/
theorem Memory.write_wf {m : Memory} (hm : m.wf) (i : Nat) (v : Byte) : (m.write i v).wf := by
  induction m with
  | nil => exact List.pairwise_singleton _ _
  | cons c rest ih =>
    obtain ⟨k, b⟩ := c
    obtain ⟨hhead, htail⟩ := List.pairwise_cons.1 hm
    by_cases h1 : i < k
    · simp only [Memory.write, h1, if_true]
      refine List.pairwise_cons.2 ⟨fun x hx => ?_, hm⟩
      obtain rfl | hx := List.mem_cons.1 hx
      · exact h1
      · exact h1.trans (hhead x hx)
    · by_cases h2 : i = k
      · simp only [Memory.write, h2, if_true, if_false, lt_irrefl]
        exact List.pairwise_cons.2 ⟨hhead, htail⟩
      · simp only [Memory.write, h1, h2, if_false]
        refine List.pairwise_cons.2 ⟨fun x hx => ?_, ih htail⟩
        obtain rfl | hx := Memory.mem_write hx
        · show k < i
          omega
        · exact hhead x hx

/-- A write of an existing cell lists existing cells only. -/
theorem Memory.write_within {m : Memory} {n : Nat} (hm : m.within n) {i : Nat} (hi : i < n) (v : Byte) :
    (m.write i v).within n := by
  intro x hx
  obtain rfl | hx := Memory.mem_write hx
  · exact hi
  · exact hm x hx

/-- A cell that does not exist is unwritten. -/
theorem Memory.read_of_within {m : Memory} {n i : Nat} (hm : m.within n) (hi : n ≤ i) : m.read i = none := by
  induction m with
  | nil => rfl
  | cons c rest ih =>
    obtain ⟨k, b⟩ := c
    have hk : k < n := hm (k, b) List.mem_cons_self
    have hne : k ≠ i := by omega
    simpa [Memory.read, hne] using ih (fun x hx => hm x (List.mem_cons_of_mem _ hx))

theorem Memory.read_fill (m : Memory) (v : Byte) (is : List Nat) (j : Nat) :
    (m.fill v is).read j = if j ∈ is then some v else m.read j := by
  induction is generalizing m with
  | nil => simp [Memory.fill]
  | cons i rest ih =>
    rw [Memory.fill, ih, Memory.read_write]
    by_cases h1 : j ∈ rest <;> by_cases h2 : j = i <;> simp [h1, h2]

theorem Memory.fill_wf {m : Memory} (hm : m.wf) (v : Byte) (is : List Nat) : (m.fill v is).wf := by
  induction is generalizing m with
  | nil => exact hm
  | cons i rest ih => exact ih (Memory.write_wf hm i v)

theorem Memory.fill_within {m : Memory} {n : Nat} (hm : m.within n) (v : Byte) {is : List Nat} (hi : ∀ i ∈ is, i < n) :
    (m.fill v is).within n := by
  induction is generalizing m with
  | nil => exact hm
  | cons i rest ih =>
    exact ih (Memory.write_within hm (hi i List.mem_cons_self) v) (fun k hk => hi k (List.mem_cons_of_mem _ hk))

/-- Reading a list of cells answers the bytes exactly where each cell holds its byte. -/
theorem Memory.readAll_ok_iff (m : Memory) (is : List Nat) (bs : List Byte) :
    m.readAll is = .ok bs ↔ is.map m.read = bs.map some := by
  induction is generalizing bs with
  | nil => cases bs <;> simp [Memory.readAll]
  | cons i rest ih =>
    cases hi : m.read i with
    | none => cases bs <;> simp [Memory.readAll, hi]
    | some b =>
      cases hr : m.readAll rest with
      | error k =>
        have hno : ∀ bs : List Byte, rest.map m.read ≠ bs.map some := fun bs h => by
          have := (ih bs).2 h
          rw [hr] at this
          cases this
        cases bs with
        | nil => simp [Memory.readAll, hi, hr]
        | cons c cs => simp [Memory.readAll, hi, hr, hno cs]
      | ok cs =>
        have hcs := (ih cs).1 hr
        cases bs with
        | nil => simp [Memory.readAll, hi, hr]
        | cons d ds =>
          simp only [Memory.readAll, hi, hr, List.map_cons, List.cons.injEq, Except.ok.injEq, Option.some.injEq, hcs]
          constructor
          · rintro ⟨rfl, rfl⟩
            exact ⟨rfl, rfl⟩
          · rintro ⟨rfl, h⟩
            exact ⟨rfl, (List.map_injective_iff.2 (Option.some_injective Byte)) h⟩

/-- Reading a list of cells stops at the first unwritten one: the cells before it are written. -/
theorem Memory.readAll_error_iff (m : Memory) (is : List Nat) (k : Nat) :
    m.readAll is = .error k ↔ ∃ before after, is = before ++ k :: after ∧ m.read k = none ∧ ∀ i ∈ before, m.read i ≠ none := by
  induction is with
  | nil => simp [Memory.readAll]
  | cons i rest ih =>
    cases hi : m.read i with
    | none =>
      simp only [Memory.readAll, hi, Except.error.injEq]
      constructor
      · rintro rfl
        exact ⟨[], rest, rfl, hi, by simp⟩
      · rintro ⟨before, after, h, hk, hb⟩
        cases before with
        | nil => exact (List.cons.inj h).1
        | cons x xs =>
          obtain ⟨rfl, -⟩ := List.cons.inj h
          exact absurd hi (hb _ List.mem_cons_self)
    | some b =>
      have step : m.readAll (i :: rest) = .error k ↔ m.readAll rest = .error k := by
        simp only [Memory.readAll, hi]
        cases m.readAll rest <;> simp
      rw [step, ih]
      constructor
      · rintro ⟨before, after, rfl, hk, hb⟩
        refine ⟨i :: before, after, rfl, hk, fun x hx => ?_⟩
        obtain rfl | hx := List.mem_cons.1 hx
        · simp [hi]
        · exact hb x hx
      · rintro ⟨before, after, h, hk, hb⟩
        cases before with
        | nil =>
          obtain ⟨rfl, -⟩ := List.cons.inj h
          rw [hi] at hk
          cases hk
        | cons x xs =>
          obtain ⟨rfl, rfl⟩ := List.cons.inj h
          exact ⟨xs, after, rfl, hk, fun y hy => hb y (List.mem_cons_of_mem _ hy)⟩

/-- The buffers of the state after reset are in canonical form. -/
theorem State.reset_buffers_wf : State.reset.lbuf.wf ∧ State.reset.pbuf.wf := ⟨List.Pairwise.nil, List.Pairwise.nil⟩

end Sys2Proof.Machine
end

