-- ==== Sys2Proof/Laws/Mapper.lean ====
section
/-! SUPPORT. What the slot loop does, said once (spec 41 R69 to R81). -/

namespace Sys2Proof.Machine

theorem andThen_next_iff {o : Answer} {k : State → Answer} {t : State} :
    andThen o k = .next t ↔ ∃ s, o = .next s ∧ k s = .next t := by
  cases o <;> simp [andThen]

/-- What one slot leaves unchanged. -/
structure SlotFrame (s t : State) : Prop where
  cfg : t.cfg = s.cfg
  lbuf : t.lbuf = s.lbuf
  trace : t.trace = s.trace
  hostIn : t.hostIn = s.hostIn
  hostOut : t.hostOut = s.hostOut
  busIn : t.busIn = s.busIn
  busDraws : t.busDraws = s.busDraws
  result : t.result = s.result

theorem SlotFrame.rfl {s : State} : SlotFrame s s := ⟨by rfl, by rfl, by rfl, by rfl, by rfl, by rfl, by rfl, by rfl⟩

theorem SlotFrame.trans {s t u : State} (h : SlotFrame s t) (k : SlotFrame t u) : SlotFrame s u :=
  ⟨k.cfg.trans h.cfg, k.lbuf.trans h.lbuf, k.trace.trans h.trace, k.hostIn.trans h.hostIn, k.hostOut.trans h.hostOut,
   k.busIn.trans h.busIn, k.busDraws.trans h.busDraws, k.result.trans h.result⟩

/-- What the slot does to PBUF, OOB and the draw counter. -/
structure SlotEffect (j : Nat) (s t : State) : Prop extends SlotFrame s t where
  other : ∀ i, i ≠ 1 + j → t.pbuf.read i = s.pbuf.read i
  own : t.pbuf.read (1 + j) = match slot s.cfg j with
    | .skip => s.pbuf.read (1 + j)
    | .read idx => s.lbuf.read idx
    | .oob idx => some (Config.draw s.byteDraws j idx)
  oob : t.oob = (s.oob || (slot s.cfg j).isOob)
  draws : t.byteDraws = s.byteDraws + if (slot s.cfg j).isOob then 1 else 0

theorem State.result_oobRead (s : State) (j : Nat) (idx : Int) : (s.oobRead j idx).result = s.result := by
  show (s.writeCell .pbuf (1 + j) (Config.draw s.byteDraws j idx)).setOob.result = s.result
  rw [State.result_setOob]
  rfl

/-- One slot completes exactly where its READ cell is written. -/
theorem mapSlot_next {j : Nat} {s t : State} (h : mapSlot j s = .next t) : SlotEffect j s t := by
  unfold mapSlot at h
  cases hs : slot s.cfg j with
  | skip =>
    rw [hs] at h
    cases h
    exact { SlotFrame.rfl with
      other := fun _ _ => by rfl
      own := by rw [hs]
      oob := by simp [hs, Slot.isOob]
      draws := by simp [hs, Slot.isOob] }
  | read idx =>
    rw [hs] at h
    dsimp only at h
    cases hb : s.readCell .lbuf idx with
    | none => rw [hb] at h; cases h
    | some b =>
      rw [hb] at h
      cases h
      exact {
        cfg := by rfl, lbuf := by rfl, trace := by rfl, hostIn := by rfl, hostOut := by rfl, busIn := by rfl, busDraws := by rfl, result := by rfl
        other := fun i hi => by simp [Memory.read_write_other _ _ hi]
        own := by
          rw [hs]
          simpa [Memory.read_write_same] using hb.symm
        oob := by simp [hs, Slot.isOob, State.oob]
        draws := by simp [hs, Slot.isOob] }
  | oob idx =>
    rw [hs] at h
    cases h
    exact {
      cfg := by rfl, lbuf := by rfl, trace := by rfl, hostIn := by rfl, hostOut := by rfl, busIn := by rfl, busDraws := by rfl
      result := State.result_oobRead s j idx
      other := fun i hi => by simp [Memory.read_write_other _ _ hi]
      own := by
        rw [hs]
        simp [Memory.read_write_same]
      oob := by
        rw [hs]
        show (s.writeCell .pbuf (1 + j) (Config.draw s.byteDraws j idx)).setOob.oob = _
        simp [Slot.isOob]
      draws := by simp [hs, Slot.isOob] }

/-- Where one slot stops: a READ of an unwritten cell, and nothing else (spec 41 R80). -/
theorem mapSlot_stops_iff {j : Nat} {s : State} {f : Fault} :
    mapSlot j s = .fault f ↔ ∃ idx, slot s.cfg j = .read idx ∧ s.lbuf.read idx = none ∧ f = .unwritten .lbuf idx := by
  unfold mapSlot
  cases hs : slot s.cfg j with
  | skip => simp
  | oob idx => simp
  | read idx =>
    dsimp only
    cases hb : s.lbuf.read idx with
    | none => simp [hb, eq_comm]
    | some b => simp [hb]

theorem mapSlot_not_refused {j : Nat} {s : State} {r : Refusal} : mapSlot j s ≠ .refused r := by
  unfold mapSlot
  cases slot s.cfg j with
  | skip => simp
  | oob idx => simp
  | read idx =>
    dsimp only
    cases s.readCell .lbuf idx <;> simp

/-- Slots run in order are two parts run one after the other. -/
theorem mapSlots_append (js ks : List Nat) (s : State) :
    mapSlots (js ++ ks) s = andThen (mapSlots js s) (mapSlots ks) := by
  induction js generalizing s with
  | nil => rfl
  | cons j rest ih =>
    simp only [List.cons_append, mapSlots]
    cases mapSlot j s with
    | next u => exact ih u
    | fault f => rfl
    | refused r => rfl

theorem range_succ_oobBefore (c : Config) (n : Nat) :
    oobBefore c (n + 1) = oobBefore c n + if (slot c n).isOob then 1 else 0 := by
  simp [oobBefore, List.range_succ, List.countP_append, List.countP_singleton]

/-- The slot loop over the first `n` slots: everything it does, where it completes. -/
structure LoopEffect (n : Nat) (s t : State) : Prop extends SlotFrame s t where
  other : ∀ i, (i = 0 ∨ n < i) → t.pbuf.read i = s.pbuf.read i
  own : ∀ j, j < n → t.pbuf.read (1 + j) = mappedByte s j
  oob : t.oob = (s.oob || (List.range n).any (fun k => (slot s.cfg k).isOob))
  draws : t.byteDraws = s.byteDraws + oobBefore s.cfg n

theorem mapSlots_next {n : Nat} {s t : State} (h : mapSlots (List.range n) s = .next t) : LoopEffect n s t := by
  induction n generalizing t with
  | zero =>
    cases h
    exact { SlotFrame.rfl with
      other := fun _ _ => by rfl
      own := fun j hj => absurd hj (Nat.not_lt_zero j)
      oob := by simp
      draws := by rfl }
  | succ n ih =>
    rw [List.range_succ, mapSlots_append] at h
    obtain ⟨u, hu, hlast⟩ := andThen_next_iff.1 h
    have hu := ih hu
    obtain ⟨v, hv, hvt⟩ := andThen_next_iff.1 (show andThen (mapSlot n u) (mapSlots []) = .next t from hlast)
    cases hvt
    have e := mapSlot_next hv
    exact { SlotFrame.trans hu.toSlotFrame e.toSlotFrame with
      other := fun i hi => by
        rw [e.other i (by omega), hu.other i (by omega)]
      own := fun j hj => by
        obtain hlt | rfl := Nat.lt_succ_iff_lt_or_eq.1 hj
        · rw [e.other (1 + j) (by omega), hu.own j hlt]
        · rw [e.own, hu.cfg, hu.lbuf, hu.draws, hu.other (1 + j) (by omega)]
          rfl
      oob := by simp [e.oob, hu.oob, hu.cfg, List.range_succ, Bool.or_assoc]
      draws := by rw [e.draws, hu.draws, hu.cfg, range_succ_oobBefore, Nat.add_assoc] }

/-- The loop over the first `n` slots completes where every READ slot's cell is written. -/
theorem mapSlots_completes {n : Nat} {s : State}
    (h : ∀ j idx, j < n → slot s.cfg j = .read idx → (s.lbuf.read idx).isSome) : ∃ t, mapSlots (List.range n) s = .next t := by
  induction n with
  | zero => exact ⟨s, by rfl⟩
  | succ n ih =>
    obtain ⟨u, hu⟩ := ih (fun j idx hj => h j idx (by omega))
    have e := mapSlots_next hu
    cases hm : mapSlot n u with
    | next v => exact ⟨v, by rw [List.range_succ, mapSlots_append, hu]; simp [andThen, mapSlots, hm]⟩
    | refused r => exact absurd hm mapSlot_not_refused
    | fault f =>
      obtain ⟨idx, hs, hnone, -⟩ := mapSlot_stops_iff.1 hm
      rw [e.cfg] at hs
      rw [e.lbuf] at hnone
      have := h n idx (by omega) hs
      rw [hnone] at this
      cases this

/-- The loop faults at the first READ slot whose cell is unwritten (spec 60 R102). -/
theorem mapSlots_faults {n j idx : Nat} {s : State} (hj : j < n) (hs : slot s.cfg j = .read idx) (hnone : s.lbuf.read idx = none)
    (hbefore : ∀ k i, k < j → slot s.cfg k = .read i → (s.lbuf.read i).isSome) :
    mapSlots (List.range n) s = .fault (.unwritten .lbuf idx) := by
  obtain ⟨u, hu⟩ := mapSlots_completes hbefore
  have e := mapSlots_next hu
  have hsplit : List.range n = List.range j ++ j :: (List.range (n - j - 1)).map (j + 1 + ·) := by
    have h1 : n = j + (1 + (n - j - 1)) := by omega
    conv_lhs => rw [h1]
    rw [List.range_add, List.range_add]
    simp [Function.comp_def, Nat.add_assoc]
  rw [hsplit, mapSlots_append, hu]
  have hm : mapSlot j u = .fault (.unwritten .lbuf idx) :=
    mapSlot_stops_iff.2 ⟨idx, by rw [e.cfg]; exact hs, by rw [e.lbuf]; exact hnone, by rfl⟩
  simp [andThen, mapSlots, hm]

/-- The host's duty before MAP or DRAW (spec 70 R119), checked slot by slot. -/
theorem readyToMap_of_all {s : State}
    (h : (List.range s.cfg.bufferSize).all (fun j => match slot s.cfg j with
      | .skip => true
      | .read idx => (s.lbuf.read idx).isSome
      | .oob _ => true) = true) : s.ReadyToMap := by
  intro j idx hj hs
  have := List.all_eq_true.1 h j (List.mem_range.2 hj)
  rw [hs] at this
  exact this

end Sys2Proof.Machine
end

