-- ==== Sys2Proof/Laws/Exec.lean ====
section
/-! SUPPORT. What a command can do, said once: the inversion of exec, and the canonical form of PBUF through the slot loop. -/

namespace Sys2Proof.Machine

/-- A block write completes exactly where its payload is written and its transaction completes. -/
theorem blockWrite_next_iff {reg : Byte} {n : Nat} {s t : State} :
    blockWrite reg n s = .next t ↔ ∃ payload, s.pbuf.readAll (payloadCells n) = .ok payload ∧
      transact [reg :: payload] (s.writeCell .pbuf 0 reg) = .next t := by
  unfold blockWrite withPayload
  cases s.pbuf.readAll (payloadCells n) <;> simp

/-- A block write whose payload is not all written faults at its first unwritten cell. -/
theorem blockWrite_unwritten {reg : Byte} {n i : Nat} {s : State} (h : s.pbuf.readAll (payloadCells n) = .error i) :
    blockWrite reg n s = .fault (.unwritten .pbuf i) := by
  simp [blockWrite, withPayload, h]

theorem mem_payloadCells {n i : Nat} : i ∈ payloadCells n ↔ 1 ≤ i ∧ i ≤ n := by
  simp only [payloadCells, List.mem_range'_1]
  omega

/-- A payload is read whole exactly where it has its length and each cell holds its byte. -/
theorem readAll_payload_iff (m : Memory) (n : Nat) (payload : List Byte) :
    m.readAll (payloadCells n) = .ok payload ↔ payload.length = n ∧ ∀ i, i < n → m.read (1 + i) = payload[i]? := by
  rw [Memory.readAll_ok_iff]
  constructor
  · intro h
    have hlen : payload.length = n := by simpa [payloadCells] using (congrArg List.length h).symm
    refine ⟨hlen, fun i hi => ?_⟩
    have := congrArg (·[i]?) h
    have hp : i < payload.length := by omega
    simpa [payloadCells, hi, hp] using this
  · rintro ⟨hlen, h⟩
    apply List.ext_getElem?
    intro i
    by_cases hi : i < n
    · have hp : i < payload.length := by omega
      simpa [payloadCells, hi, hp] using h i hi
    · simp [payloadCells, hi, hlen]

/-- The payload cells after the slot loop are all written where they were written before it, or where nothing is skipped. -/
theorem isSome_mappedByte_clearPayload {s : State} {j : Nat} (hj : j < s.cfg.bufferSize) (h : s.ReadyToMap) :
    (mappedByte s.clearPayload j).isSome := by
  unfold mappedByte
  cases hs : slot s.clearPayload.cfg j with
  | skip =>
    have : 1 + j ∈ payloadCells s.cfg.bufferSize := mem_payloadCells.2 (by omega)
    simp [Memory.read_fill, this]
  | read idx => exact h j idx hj hs
  | oob idx => rfl

/-- Everything a command that completes is, by its constructor. -/
theorem exec_next_cases {i : Instr} {s t : State} (h : exec i s = .next t) :
    (∃ reg val, i = .wreg reg val ∧ transact [[reg, val]] s = .next t) ∨
    (∃ reg len payload, i = .wblk reg len ∧ legalLength s.cfg len = true ∧ s.pbuf.readAll (payloadCells len.toNat) = .ok payload ∧
      transact [reg :: payload] (s.writeCell .pbuf 0 reg) = .next t) ∨
    (∃ reg len, i = .wblk reg len ∧ legalLength s.cfg len = false ∧ t = s.setResult .illegal) ∨
    (∃ u, i = .map ∧ mapAll s = .next u ∧ t = u.setResult .ok) ∨
    (∃ u payload, i = .draw ∧ mapAll s.clearPayload = .next u ∧ u.pbuf.readAll (payloadCells s.cfg.bufferSize) = .ok payload ∧
      transact [s.cfg.regImage :: payload] (u.writeCell .pbuf 0 s.cfg.regImage) = .next t) ∨
    (i = .init ∧ transact (initSequence s.cfg) s = .next t) := by
  cases i with
  | wreg reg val => exact .inl ⟨reg, val, by rfl, h⟩
  | wblk reg len =>
    have h : (if legalLength s.cfg len then blockWrite reg len.toNat s else raiseIllegal s) = .next t := h
    cases hl : legalLength s.cfg len with
    | true =>
      rw [hl, if_pos (by rfl)] at h
      obtain ⟨payload, hp, ht⟩ := blockWrite_next_iff.1 h
      exact .inr (.inl ⟨reg, len, payload, by rfl, hl, hp, ht⟩)
    | false =>
      rw [hl, if_neg (by simp)] at h
      injection h with h
      exact .inr (.inr (.inl ⟨reg, len, by rfl, hl, h.symm⟩))
  | map =>
    obtain ⟨u, hu, ht⟩ := andThen_next_iff.1 (show andThen (mapAll s) complete = .next t from h)
    injection ht with ht
    exact .inr (.inr (.inr (.inl ⟨u, by rfl, hu, ht.symm⟩)))
  | draw =>
    obtain ⟨u, hu, ht⟩ := andThen_next_iff.1 (show andThen (mapAll s.clearPayload) sendFrame = .next t from h)
    have hcfg : u.cfg = s.cfg := (mapSlots_next hu).cfg
    unfold sendFrame at ht
    rw [hcfg] at ht
    obtain ⟨payload, hp, ht⟩ := blockWrite_next_iff.1 ht
    exact .inr (.inr (.inr (.inr (.inl ⟨u, payload, by rfl, hu, hp, ht⟩))))
  | init => exact .inr (.inr (.inr (.inr (.inr ⟨by rfl, h⟩))))

/-- The slot loop keeps PBUF in canonical form. -/
theorem mapSlots_pbuf_wf {js : List Nat} {s t : State} (h : mapSlots js s = .next t) (hs : s.pbuf.wf) : t.pbuf.wf := by
  induction js generalizing s with
  | nil => cases h; exact hs
  | cons j rest ih =>
    obtain ⟨u, hu, ht⟩ := andThen_next_iff.1 (show andThen (mapSlot j s) (mapSlots rest) = .next t from h)
    refine ih ht ?_
    unfold mapSlot at hu
    cases hv : slot s.cfg j with
    | skip => rw [hv] at hu; cases hu; exact hs
    | oob idx => rw [hv] at hu; cases hu; exact Memory.write_wf hs _ _
    | read idx =>
      rw [hv] at hu
      dsimp only at hu
      cases hb : s.readCell .lbuf idx with
      | none => rw [hb] at hu; cases hu
      | some b => rw [hb] at hu; cases hu; exact Memory.write_wf hs _ _

/-- The slot loop over existing slots lists existing PBUF cells only. -/
theorem mapSlots_pbuf_within {js : List Nat} {n : Nat} {s t : State} (h : mapSlots js s = .next t) (hjs : ∀ j ∈ js, j < n)
    (hs : s.pbuf.within (n + 1)) : t.pbuf.within (n + 1) := by
  induction js generalizing s with
  | nil => cases h; exact hs
  | cons j rest ih =>
    obtain ⟨u, hu, ht⟩ := andThen_next_iff.1 (show andThen (mapSlot j s) (mapSlots rest) = .next t from h)
    have hj : 1 + j < n + 1 := by
      have := hjs j List.mem_cons_self
      omega
    refine ih ht (fun k hk => hjs k (List.mem_cons_of_mem _ hk)) ?_
    unfold mapSlot at hu
    cases hv : slot s.cfg j with
    | skip => rw [hv] at hu; cases hu; exact hs
    | oob idx => rw [hv] at hu; cases hu; exact Memory.write_within hs hj _
    | read idx =>
      rw [hv] at hu
      dsimp only at hu
      cases hb : s.readCell .lbuf idx with
      | none => rw [hb] at hu; cases hu
      | some b => rw [hb] at hu; cases hu; exact Memory.write_within hs hj _

/-- Every memory operation of a command keeps the canonical form: clearing, the slot loop and the prefix cell of DRAW. -/
theorem clearPayload_pbuf_wf {s : State} (hs : s.pbuf.wf) : s.clearPayload.pbuf.wf := Memory.fill_wf hs _ _

theorem clearPayload_pbuf_within {s : State} (hs : s.pbuf.within (s.cfg.bufferSize + 1)) :
    s.clearPayload.pbuf.within (s.cfg.bufferSize + 1) :=
  Memory.fill_within hs _ (fun i hi => by
    have := mem_payloadCells.1 hi
    omega)

end Sys2Proof.Machine
end

