-- ==== Sys2Proof/Laws/PerInstr.lean ====
section
/-! SUPPORT. A statement made per command, as syntax: the word of a command meets its row of spec/opcode_table.json (match and mask). -/

namespace Sys2Proof.Laws.TableMatch

/-- The row's mask in spec/opcode_table.json. -/
def rowMask : Instr → Word
  | .wreg _ _ => 0xFFFF0000
  | .wblk _ _ => 0xFF0000FF
  | .map => 0xFFFFFFFF
  | .draw => 0xFFFFFFFF
  | .init => 0xFFFFFFFF

/-- The row's match in spec/opcode_table.json. -/
def rowMatch : Instr → Word
  | .wreg _ _ => 0x01000000
  | .wblk _ _ => 0x02000000
  | .map => 0x03000000
  | .draw => 0x04000000
  | .init => 0x05000000

/-- The encoded word has the row's fixed bits. -/
def Statement (i : Instr) : Prop := encode i &&& rowMask i = rowMatch i

theorem wreg (reg val : Byte) : Statement (.wreg reg val) := by
  unfold Statement encode rowMask rowMatch
  apply BitVec.eq_of_getLsbD_eq
  intro i hi
  rw [BitVec.getLsbD_and, getLsbD_wordOfFields]
  interval_cases i <;> simp

theorem wblk (reg len : Byte) : Statement (.wblk reg len) := by
  unfold Statement encode rowMask rowMatch
  apply BitVec.eq_of_getLsbD_eq
  intro i hi
  rw [BitVec.getLsbD_and, getLsbD_wordOfFields]
  interval_cases i <;> simp

theorem map : Statement .map := by
  unfold Statement
  decide

theorem draw : Statement .draw := by
  unfold Statement
  decide

theorem init : Statement .init := by
  unfold Statement
  decide

end Sys2Proof.Laws.TableMatch
end

