-- ==== Sys2Proof/Laws/Window.lean ====
section
/-! SUPPORT. The host window map read off by its ranges, and what one step can do, said once (spec 20 R36 to R42). -/

namespace Sys2Proof.Machine

theorem region_lbuf_iff {c : Config} {off : Offset} {i : Nat} :
    region c off = .lbuf i ↔ off.toNat = i ∧ i < 0x100 ∧ i < c.logicalSize := by
  simp only [region]
  split_ifs <;> simp <;> omega

theorem region_pbuf_iff {c : Config} {off : Offset} {i : Nat} :
    region c off = .pbuf i ↔ off.toNat = 0x100 + i ∧ i < 0x100 ∧ i ≤ c.bufferSize := by
  simp only [region]
  split_ifs <;> simp <;> omega

theorem region_cmd_iff {c : Config} {off : Offset} {k : Nat} : region c off = .cmd k ↔ off.toNat = 0x200 + k ∧ k < 4 := by
  simp only [region]
  split_ifs <;> simp <;> omega

theorem region_status_iff {c : Config} {off : Offset} {k : Nat} : region c off = .status k ↔ off.toNat = 0x204 + k ∧ k < 4 := by
  simp only [region]
  split_ifs <;> simp <;> omega

theorem region_reserved_iff {c : Config} {off : Offset} :
    region c off = .reserved ↔
      (off.toNat < 0x100 ∧ c.logicalSize ≤ off.toNat) ∨ (0x100 + c.bufferSize < off.toNat ∧ off.toNat < 0x200) ∨ 0x208 ≤ off.toNat := by
  simp only [region]
  split_ifs <;> simp <;> omega

/-- What an event of the outside that has a next state does, said once. -/
inductive EventEffect : HostEvent → State → State → Prop where
  | writeLbuf (off : Offset) (b : Byte) (i : Nat) (s : State) (h : region s.cfg off = .lbuf i) :
      EventEffect (.st8 off b) s (s.writeCell .lbuf i b)
  | writePbuf (off : Offset) (b : Byte) (i : Nat) (s : State) (h : region s.cfg off = .pbuf i) :
      EventEffect (.st8 off b) s (s.writeCell .pbuf i b)
  | readByte (off : Offset) (v : Byte) (s : State) : EventEffect (.ld8 off) s (s.reply (.byte v))
  | command (off : Offset) (w : Word) (s t : State) (h : region s.cfg off = .cmd 0) (ht : writeCmd w s = .next t) :
      EventEffect (.st32 off w) s t
  | writeStatus (off : Offset) (w : Word) (s : State) (h : region s.cfg off = .status 0) :
      EventEffect (.st32 off w) s (s.writeStatus w)
  | readStatus (off : Offset) (s : State) (h : region s.cfg off = .status 0) :
      EventEffect (.ld32 off) s (s.reply (.word s.statusWord))
  | reset (s : State) : EventEffect .reset s s.resetBlock

theorem hostEvent_next {e : HostEvent} {s t : State} (h : hostEvent e s = .next t) : EventEffect e s t := by
  cases e with
  | reset => cases h; exact .reset s
  | otherWidth off => simp only [hostEvent, hostOtherWidth] at h; split at h <;> cases h
  | st8 off b =>
    simp only [hostEvent, hostSt8] at h
    split at h <;> cases h
    · exact .writeLbuf off b _ s ‹_›
    · exact .writePbuf off b _ s ‹_›
  | ld8 off =>
    simp only [hostEvent, hostLd8, hostReadCell] at h
    split at h
    · split at h <;> cases h
      exact .readByte off _ s
    · split at h <;> cases h
      exact .readByte off _ s
    all_goals cases h
  | st32 off w =>
    simp only [hostEvent, hostSt32] at h
    split at h
    · cases h
    · cases h
    · next k hk =>
      split at h
      · next hk0 =>
        subst hk0
        exact .command off w s t hk h
      · cases h
    · next k hk =>
      split at h
      · next hk0 =>
        subst hk0
        cases h
        exact .writeStatus off w s hk
      · cases h
    · cases h
  | ld32 off =>
    simp only [hostEvent, hostLd32] at h
    split at h
    · cases h
    · cases h
    · split at h <;> cases h
    · next k hk =>
      split at h
      · next hk0 =>
        subst hk0
        cases h
        exact .readStatus off s hk
      · cases h
    · cases h

/-- What a step that has a next state does: it idles, or it takes the next event of the outside. -/
theorem step_next_cases {s t : State} (h : step s = .next t) :
    s.cfg.valid = true ∧
    ((s.hostIn = [] ∧ t = s) ∨ ∃ e rest, s.hostIn = e :: rest ∧ EventEffect e { s with hostIn := rest } t) := by
  unfold step turn at h
  cases hv : s.cfg.valid with
  | false => simp [hv] at h
  | true =>
    refine ⟨by rfl, ?_⟩
    rw [hv, if_pos (by rfl)] at h
    cases hh : s.hostIn with
    | nil =>
      rw [hh] at h
      cases h
      exact .inl ⟨by rfl, by rfl⟩
    | cons e rest =>
      rw [hh] at h
      exact .inr ⟨e, rest, by rfl, hostEvent_next h⟩

/-- A step that takes an event of the outside. -/
theorem step_of_event {s : State} {e : HostEvent} {rest : List HostEvent} (hv : s.cfg.valid = true) (hh : s.hostIn = e :: rest) :
    step s = hostEvent e { s with hostIn := rest } := by
  simp [step, turn, hv, hh]

end Sys2Proof.Machine
end

