-- ==== Sys2Proof/Tests/Slice0.lean ====
section
/-! SUPPORT. The model's own tests. Expected results are those of spec 95 (the section is named at each test) or of the rule named. The last
section holds a witness for every statement that has hypotheses. The register indices of `testCfg` are the tests' own: the spec leaves them
OPEN (00 R11). -/

namespace Sys2Proof.Tests

open Sys2Proof.Machine Sys2Proof.Claims

/-! ## A small bench -/

/-- The reference sizes and switches, with register indices that differ from each other. -/
def testCfg : Config where
  width := 17
  height := 7
  bufferSize := 144
  devAddr := 0x74
  regCmd := 0xfd
  pageFunction := 0x0b
  regMode := 0x00
  regFrame := 0x01
  regNullA := 0x02
  regNullB := 0x03
  regImage := 0x24
  guard := .gt
  arith := .unsigned

def geCfg : Config := { testCfg with guard := .ge }

def signedCfg : Config := { testCfg with arith := .signed }

/-- The smallest sizes of interest: slot 0 reads LBUF[0], slot 1 reads outside LBUF (41 R72 to R76). -/
def tinyCfg : Config := { testCfg with width := 1, height := 1, bufferSize := 2 }

/-- A bench with the buffers, the coming host accesses and the coming bus answers given. -/
def bench (c : Config) (lbuf pbuf : Memory) (hostIn : List HostEvent) (busIn : List BusAnswer) : State where
  cfg := c
  lbuf := lbuf
  pbuf := pbuf
  status := 0
  trace := []
  hostIn := hostIn
  hostOut := []
  busIn := busIn
  busDraws := 0
  byteDraws := 0

/-- A bench with nothing written. -/
def bare (hostIn : List HostEvent) (busIn : List BusAnswer) : State := bench testCfg [] [] hostIn busIn

/-- The ramp: LBUF[i] = i (spec 95 §2.4). -/
def ramp : Memory := (List.range 119).map (fun i => (i, BitVec.ofNat 8 i))

/-- The answer is a next state with a property. -/
def nextIs (o : Answer) (p : State → Bool) : Bool :=
  match o with
  | .next t => p t
  | .fault _ => false
  | .refused _ => false

/-- The answer is this fault. -/
def faultIs (o : Answer) (f : Fault) : Bool :=
  match o with
  | .next _ => false
  | .fault g => g == f
  | .refused _ => false

/-- The answer is this refusal. -/
def refusedIs (o : Answer) (r : Refusal) : Bool :=
  match o with
  | .next _ => false
  | .fault _ => false
  | .refused q => q == r

/-- A word decodes to this command. -/
def decodesTo (w : Word) (i : Instr) : Bool :=
  match decode Config.reference w with
  | .ok j => j == i
  | .error _ => false

/-- A word is illegal. -/
def isIllegal (w : Word) : Bool :=
  match decode Config.reference w with
  | .ok _ => false
  | .error _ => true

/-- A byte access or a 32-bit access as one step of the bench. -/
def accessed (e : HostEvent) : Answer := step (bench testCfg [(118, 0x5a)] [(0, 0x11), (144, 0x22)] [e] [])

/-! ## WellFormed: an ill-formed configuration or command for each check (spec 00 R15, 30 R55) -/

theorem test_wf_reference : testCfg.valid = true ∧ geCfg.valid = true ∧ signedCfg.valid = true := by decide

theorem test_wf_width_zero : { testCfg with width := 0 }.valid = false := by decide

theorem test_wf_height_zero : { testCfg with height := 0 }.valid = false := by decide

theorem test_wf_area : { testCfg with width := 16, height := 16 }.valid = true ∧ { testCfg with width := 16, height := 17 }.valid = false := by
  decide

theorem test_wf_buffer_zero : { testCfg with bufferSize := 0 }.valid = false := by decide

theorem test_wf_buffer_size : { testCfg with bufferSize := 255 }.valid = true ∧ { testCfg with bufferSize := 256 }.valid = false := by decide

theorem test_wf_enable_len : { testCfg with bufferSize := 18 }.valid = true ∧ { testCfg with bufferSize := 17 }.valid = false := by decide

theorem test_wf_block_length :
    Instr.wf testCfg (.wblk 0x40 0) = false ∧ Instr.wf testCfg (.wblk 0x40 1) = true ∧ Instr.wf testCfg (.wblk 0x40 144) = true ∧
    Instr.wf testCfg (.wblk 0x40 145) = false ∧ Instr.wf testCfg (.wreg 0xff 0xff) = true := by decide

/-! ## Decode (spec 95 §2.1; the words are written out from 30 R54 and R56) -/

theorem test_decode_wreg :
    decodesTo 0b00000001000000000000101000000001 (.wreg 0x0a 0x01) = true ∧ decodesTo 0x01000000 (.wreg 0 0) = true ∧
    decodesTo 0x0100FFFF (.wreg 0xff 0xff) = true ∧ isIllegal 0x01010A01 = true ∧ isIllegal 0x01FF0000 = true := by decide

theorem test_decode_wblk :
    decodesTo 0b00000010000000110100000000000000 (.wblk 0x40 3) = true ∧ decodesTo 0x02010000 (.wblk 0 1) = true ∧
    decodesTo 0x02904000 (.wblk 0x40 144) = true ∧ isIllegal 0x02910000 = true ∧ isIllegal 0x02000000 = true ∧
    isIllegal 0x02FF0000 = true ∧ isIllegal 0x02014001 = true := by decide

theorem test_decode_map :
    decodesTo 0b00000011000000000000000000000000 .map = true ∧ isIllegal 0x03000001 = true ∧ isIllegal 0x03000100 = true ∧
    isIllegal 0x03010000 = true := by decide

theorem test_decode_draw : decodesTo 0b00000100000000000000000000000000 .draw = true ∧ isIllegal 0x04800000 = true := by decide

theorem test_decode_init : decodesTo 0b00000101000000000000000000000000 .init = true ∧ isIllegal 0x050000FF = true := by decide

theorem test_decode_reserved :
    isIllegal 0 = true ∧ isIllegal 0x06000000 = true ∧ isIllegal 0x80000000 = true ∧ isIllegal 0xFF000000 = true ∧
    isIllegal 0xFFFFFFFF = true := by decide

theorem test_decode_table_word :
    decodeTableWord 32 0x01000A01 = some (.wreg 0x0a 0x01) ∧ decodeTableWord 32 0x02014000 = some (.wblk 0x40 1) ∧
    decodeTableWord 32 0x02000000 = none := by decide

/-- Spec 20 R39: lane 0 is the least significant byte; anything but four lanes is no command (30 R59). -/
theorem test_decode_lanes :
    wordOfLanes 0x01 0x0a 0x00 0x01 = 0x01000A01 ∧ laneOf 0x01000A01 0 = 0x01 ∧ laneOf 0x01000A01 1 = 0x0a ∧
    (match decodeBytes testCfg [0x01, 0x0a, 0x00] with
      | .ok _ => false
      | .error e => e == .notOneWord) = true := by decide

/-! ## WREG and WBLK (spec 95 E1, §2.2, §2.3) -/

/-- E1, with a bus that answers fail: the record and RESULT = 1, from a CMD write. -/
theorem test_wreg_run :
    nextIs (step (bare [.st32 0x200 0x01000A01] [.ok])) (fun t => t.trace == [⟨0x74, [0x0a, 0x01], .ok⟩] && t.statusWord == 0) = true ∧
    nextIs (step (bare [.st32 0x200 0x01000A01] [.fail])) (fun t => t.trace == [⟨0x74, [0x0a, 0x01], .fail⟩] && t.statusWord == 1) = true := by
  decide

/-- §2.2: a page select that fails leaves the page UNKNOWN. -/
theorem test_wreg_page :
    nextIs (exec (.wreg 0xfd 0x0b) (bare [] [.ok])) (fun t => t.page == some 0x0b) = true ∧
    nextIs (exec (.wreg 0xfd 0x00) (bare [] [.fail])) (fun t => t.page == none && t.result == 1) = true := by decide

/-- §2.3, rows 2 and 3. -/
theorem test_wblk_three :
    nextIs (exec (.wblk 0x40 3) (bench testCfg [] [(1, 0x11), (2, 0x22), (3, 0x33)] [] [.ok]))
      (fun t => t.trace == [⟨0x74, [0x40, 0x11, 0x22, 0x33], .ok⟩] && t.pbuf.read 0 == some 0x40 && t.result == 0) = true ∧
    nextIs (exec (.wblk 0x40 3) (bench testCfg [] [(1, 0x11), (2, 0x22), (3, 0x33)] [] [.fail]))
      (fun t => t.pbuf.read 0 == some 0x40 && t.result == 1) = true := by decide

/-- §2.3, row 5 (and 60 R102: the bus is not asked) and row 7. -/
theorem test_wblk_unwritten :
    faultIs (exec (.wblk 0x40 3) (bench testCfg [] [(1, 0x11), (3, 0x33)] [] [.never])) (.unwritten .pbuf 2) = true ∧
    nextIs (step (bare [.st32 0x200 0x02000000] [.ok])) (fun t => t.result == 2 && t.trace.isEmpty && t.pbuf.isEmpty) = true := by decide

/-! ## The mapper (spec 95 §2.4, §2.6) -/

/-- §2.4, all four settings, at the corners of the table. -/
theorem test_slot_rows :
    slot testCfg 0 = .read 8 ∧ slot testCfg 7 = .oob 127 ∧ slot geCfg 7 = .skip ∧ slot testCfg 8 = .read 109 ∧
    slot testCfg 15 = .skip ∧ slot signedCfg 15 = .oob (-10) ∧ slot testCfg 126 = .read 0 ∧ slot testCfg 134 = .read 118 ∧
    slot testCfg 135 = .oob 135 ∧ slot testCfg 136 = .skip ∧ slot signedCfg 136 = .read 101 ∧ slot signedCfg 143 = .oob (-18) := by
  decide

/-- M5: the ramp at the default configuration; a skipped cell stays unwritten, PBUF[0] too, STATUS = 0x100. -/
theorem test_map_ramp :
    nextIs (exec .map (bench testCfg ramp [] [] [])) (fun t =>
      t.pbuf.read 1 == some 8 && t.pbuf.read 9 == some 109 && t.pbuf.read 127 == some 0 && t.pbuf.read 135 == some 118 &&
      t.pbuf.read 16 == none && t.pbuf.read 0 == none && t.statusWord == 0x100 && t.trace.isEmpty) = true := by decide +kernel

/-- M6 and M8: no OOB under GE; the aliases of column 16 under SIGNED. M10: the last unwritten cell. -/
theorem test_map_settings :
    nextIs (exec .map (bench geCfg ramp [] [] [])) (fun t => t.pbuf.read 8 == none && t.statusWord == 0) = true ∧
    nextIs (exec .map (bench signedCfg ramp [] [] [])) (fun t =>
      [137, 138, 139, 140, 141, 142].map t.pbuf.read == [some 101, some 84, some 67, some 50, some 33, some 16]) = true ∧
    faultIs (exec .map (bench testCfg (ramp.take 118) [] [] [])) (.unwritten .lbuf 118) = true := by decide +kernel

/-! ## DRAW and INIT (spec 95 §2.7, §2.8) -/

/-- D2: one record of 145 bytes, the skipped slots 0x00 whatever PBUF held. -/
theorem test_draw_ramp :
    nextIs (exec .draw (bench testCfg ramp [(16, 0xee)] [] [.ok])) (fun t =>
      t.statusWord == 0x100 && t.pbuf.read 0 == some 0x24 && t.trace.all (fun r =>
        r.bytes.length == 145 && r.bytes[0]? == some 0x24 && r.bytes[1]? == some 8 && r.bytes[9]? == some 109 &&
        r.bytes[127]? == some 0 && r.bytes[135]? == some 118 && r.bytes[16]? == some 0)) = true := by decide +kernel

/-- As D3 and D4, at the tiny sizes: a failing bus leaves the mapped frame in PBUF; an unwritten cell faults before the bus is asked. -/
theorem test_draw_fail :
    nextIs (exec .draw (bench tinyCfg [(0, 0x0f)] [] [] [.fail])) (fun t => t.statusWord == 0x101 && t.pbuf.read 1 == some 0x0f) = true ∧
    faultIs (exec .draw (bench tinyCfg [] [] [] [.never])) (.unwritten .lbuf 0) = true := by decide

/-- §2.8, the first row: nine records, the page 0x00. -/
theorem test_init_ok :
    nextIs (exec .init (bare [] [.ok, .ok, .ok, .ok, .ok, .ok, .ok, .ok, .ok])) (fun t =>
      t.trace.length == 9 && t.trace[5]? == some ⟨0x74, [0x0a, 0x01], .ok⟩ && (t.trace.map (fun r => r.bytes.length)).sum == 35 &&
      t.result == 0 && t.page == some 0x00) = true := by decide

/-- §2.8, step 3 fails (P3). -/
theorem test_init_fail :
    nextIs (exec .init (bare [] [.ok, .ok, .fail, .ok])) (fun t =>
      t.trace == [⟨0x74, [0xfd, 0x0b], .ok⟩, ⟨0x74, [0x00, 0x00], .ok⟩, ⟨0x74, [0x01, 0x00], .fail⟩] && t.result == 1 &&
      t.page == some 0x0b && t.busIn == [.ok]) = true := by decide

/-! ## STATUS, the window, the page, the assembler (spec 95 §2.9, §2.10, 30 R60, R61) -/

/-- S1 to S4. -/
theorem test_status_writes :
    (({ bare [] [] with status := 0x100 }).writeStatus 0x100).statusWord = 0x000 ∧
    (({ bare [] [] with status := 0x100 }).writeStatus 0x0ff).statusWord = 0x100 ∧
    (({ bare [] [] with status := 0x101 }).writeStatus 0xFFFFFFFF).statusWord = 0x001 ∧
    (({ bare [] [] with status := 0x000 }).writeStatus 0x100).statusWord = 0x000 := by decide

/-- S5, S8, S9, S18 and S17: reads that return, and a read that faults. -/
theorem test_window_reads :
    nextIs (accessed (.ld8 0x076)) (fun t => t.hostOut == [.byte 0x5a]) = true ∧
    nextIs (accessed (.ld8 0x100)) (fun t => t.hostOut == [.byte 0x11]) = true ∧
    nextIs (accessed (.ld8 0x190)) (fun t => t.hostOut == [.byte 0x22]) = true ∧
    nextIs (accessed (.ld32 0x204)) (fun t => t.hostOut == [.word 0]) = true ∧
    faultIs (accessed (.ld8 0x005)) (.unwritten .lbuf 5) = true := by decide

/-- S6, S7, S10 to S16. -/
theorem test_window_refused :
    refusedIs (accessed (.ld8 0x077)) (.reservedOffset 0x077) = true ∧ refusedIs (accessed (.ld8 0x0ff)) (.reservedOffset 0x0ff) = true ∧
    refusedIs (accessed (.ld8 0x191)) (.reservedOffset 0x191) = true ∧ refusedIs (accessed (.ld32 0x200)) .cmdRead = true ∧
    refusedIs (accessed (.st8 0x200 0x05)) (.registerAccess 0x200) = true ∧
    refusedIs (accessed (.st32 0x202 0x05000000)) (.registerAccess 0x202) = true ∧
    refusedIs (accessed (.ld8 0x204)) (.registerAccess 0x204) = true ∧ refusedIs (accessed (.ld32 0x000)) (.bufferWidth 0x000) = true ∧
    refusedIs (accessed (.st32 0x208 0)) (.reservedOffset 0x208) = true ∧ refusedIs (accessed (.otherWidth 0x204)) (.registerAccess 0x204) = true := by
  decide

/-- §2.10. -/
theorem test_page_traces :
    ctlPage testCfg [] = none ∧ ctlPage testCfg [⟨0x74, [0xfd, 0x00], .ok⟩] = some 0x00 ∧
    ctlPage testCfg [⟨0x74, [0xfd, 0x00], .ok⟩, ⟨0x74, [0xfd, 0x0b], .fail⟩] = none ∧
    ctlPage testCfg [⟨0x74, [0xfd, 0x00], .ok⟩, ⟨0x74, [0xfd, 0x00, 0x11], .ok⟩] = none ∧
    ctlPage testCfg [⟨0x74, [0xfd, 0x00], .ok⟩, ⟨0x74, [0x0a, 0x01], .fail⟩] = some 0x00 := by decide

/-- 30 R60: lines of text, an operand that does not fit, a comment, and what is no line. -/
theorem test_assembler_lines :
    readLine "wreg 0x0a, 1 ; run".toList = .code (.wreg (.num 10) (.num 1)) ∧ readLine "  ; nothing".toList = .empty ∧
    readLine "zero REG_MODE".toList = .code (.zero (.param .regMode)) ∧ readLine "wblk 0x40".toList = .bad ∧
    assemble testCfg (.wblk (.num 0x40) (.num 3)) = some (.st32 0x200 0x02034000) ∧
    assemble testCfg (.wblk (.num 0x40) (.num 145)) = none ∧ assemble testCfg (.wreg (.num 256) (.num 0)) = none ∧
    assemble testCfg (.selpage (.param .pageFunction)) = some (.st32 0x200 0x0100FD0B) := by decide

/-- A command word placed as the next instruction is run by the very next step, from reset: WREG and INIT complete whatever the bus answers, an
illegal word reports 2, MAP and WBLK meet the unwritten cells of reset (60 R104). -/
theorem test_step_runs_first_word :
    nextIs (step (State.reset.withFetchWord 32 0x01000A01)) (fun _ => true) = true ∧
    nextIs (step (State.reset.withFetchWord 32 0x05000000)) (fun _ => true) = true ∧
    nextIs (step (State.reset.withFetchWord 32 0)) (fun t => t.result == 2) = true ∧
    faultIs (step (State.reset.withFetchWord 32 0x03000000)) (.unwritten .lbuf 8) = true ∧
    faultIs (step (State.reset.withFetchWord 32 0x02014000)) (.unwritten .pbuf 1) = true := by decide

/-! ## Witnesses: a concrete state and operands that meet the hypotheses of each statement that has some -/

theorem next_of_nextIs {o : Answer} {p : State → Bool} (h : nextIs o p = true) : ∃ t, o = .next t ∧ p t = true := by
  cases o with
  | next t => exact ⟨t, rfl, h⟩
  | fault f => cases h
  | refused r => cases h

theorem completes {o : Answer} (h : nextIs o (fun _ => true) = true) : ∃ t, o = .next t := (next_of_nextIs h).imp (fun _ h => h.1)

theorem fault_of_faultIs {o : Answer} {f : Fault} (h : faultIs o f = true) : o = .fault f := by
  cases o with
  | next t => cases h
  | fault g => exact congrArg _ (eq_of_beq h)
  | refused r => cases h

/-- A bench ready for MAP and DRAW, with the bus answers given. -/
def ready (busIn : List BusAnswer) : State := bench tinyCfg [(0, 0x0f)] [] [] busIn

theorem ready_readyToMap (busIn : List BusAnswer) : (ready busIn).ReadyToMap :=
  readyToMap_of_all (show (List.range 2).all (fun j => match slot tinyCfg j with
    | .skip => true
    | .read idx => (Memory.read [(0, 0x0f)] idx).isSome
    | .oob _ => true) = true by decide)

/-- The host's duty is met by the ramp at the reference sizes too. -/
theorem ramp_readyToMap : (bench testCfg ramp [] [] []).ReadyToMap :=
  readyToMap_of_all (show (List.range 144).all (fun j => match slot testCfg j with
    | .skip => true
    | .read idx => (Memory.read ramp idx).isSome
    | .oob _ => true) = true by decide +kernel)

theorem ready_map : ∃ t, exec .map (ready []) = .next t := completes (by decide)

theorem ready_draw : ∃ t, exec .draw (ready []) = .next t := completes (by decide)

def nineOks : List BusAnswer := [.ok, .ok, .ok, .ok, .ok, .ok, .ok, .ok, .ok]

theorem busOk_of_nineOks {s : State} {rest : List BusAnswer} (h : s.busIn = nineOks ++ rest) : s.BusOk 9 := by
  intro k hk
  rw [h]
  interval_cases k <;> rfl

theorem test_witness_ResetEventGivesTheResetValues :
    (bare [.reset, .ld32 0x204] []).cfg.valid = true ∧ (bare [.reset, .ld32 0x204] []).hostIn = .reset :: [.ld32 0x204] := by decide

theorem test_witness_ConfigurationsOutsideTheBoundsAreRefused :
    (bench { testCfg with width := 0 } [] [] [] []).cfg.valid = false := by decide

theorem test_witness_IdleKeepsAllState : State.reset.cfg.valid = true ∧ State.reset.hostIn = [] := by decide

theorem test_witness_StepKeepsTheConfiguration :
    (∃ t, step (bare [.st32 0x200 0x05000000] []) = .next t) ∧ (∃ t, exec .map (ready []) = .next t) ∧
    (∃ t, exec .init (bare [] [.fail]) = .next t) :=
  ⟨completes (by decide),
   ready_map,
   completes (by decide)⟩

theorem test_witness_DecodeOfEncodeIsTheCommand :
    Instr.wf testCfg (.wblk 0x40 144) = true ∧ Instr.wf testCfg (.wblk 0x40 145) = false := by decide

theorem test_witness_EncodeOfDecodeIsTheWord : decode testCfg 0x02904000 = .ok (.wblk 0x40 144) := by rfl

/-- One word for each cause of spec 30 R57, and a legal one. -/
theorem test_witness_IllegalWordsChangeResultOnly :
    IllegalByR57 testCfg 0x00000000 ∧ IllegalByR57 testCfg 0x06000000 ∧ IllegalByR57 testCfg 0x01010A01 ∧
    IllegalByR57 testCfg 0x02014001 ∧ IllegalByR57 testCfg 0x05000100 ∧ IllegalByR57 testCfg 0x02000000 ∧
    IllegalByR57 testCfg 0x02910000 ∧ ¬ IllegalByR57 testCfg 0x02904000 := by
  refine ⟨?_, ?_, ?_, ?_, ?_, ?_, ?_, ?_⟩ <;> unfold IllegalByR57 <;> decide

theorem test_witness_StepRunsTheDecodedCommand :
    (bare [.st32 cmdOffset 0x01000A01] []).cfg.valid = true ∧
    (bare [.st32 cmdOffset 0x01000A01] []).hostIn = .st32 cmdOffset 0x01000A01 :: [] ∧
    decode (bare [] []).cfg 0x01000A01 = .ok (.wreg 0x0a 0x01) := ⟨by decide, by decide, by rfl⟩

theorem test_witness_StepOfAnIllegalWordReportsIllegal :
    (bare [.st32 cmdOffset 0xFFFFFFFF] []).cfg.valid = true ∧
    (bare [.st32 cmdOffset 0xFFFFFFFF] []).hostIn = .st32 cmdOffset 0xFFFFFFFF :: [] ∧ IllegalByR57 (bare [] []).cfg 0xFFFFFFFF := by
  unfold IllegalByR57
  decide

theorem test_witness_OnlyIllegalWordsRaiseIllegal :
    IllegalByR57 (bare [] []).cfg 0x02910000 ∧ ¬ IllegalByR57 (bare [] []).cfg 0x01000A01 ∧
    ∃ t, writeCmd 0x01000A01 (bare [] []) = .next t := by
  refine ⟨?_, ?_, completes (by decide)⟩ <;> unfold IllegalByR57 <;> decide

/-- A queued answer and none; a page select and another register. -/
theorem test_witness_WregSendsRegisterAndValue :
    BusAnswers (bare [] [.fail]) ∧ BusAnswers (bare [] []) ∧ (0xfd : Byte) = (bare [] []).cfg.regCmd ∧ (0x0a : Byte) ≠ (bare [] []).cfg.regCmd ∧
    (0x01 : Byte) ≠ 0 := by
  unfold BusAnswers
  decide

/-- The shortest and an illegal length on both sides; an unwritten cell after a written one; a whole payload; a block that starts at REG_CMD. -/
theorem test_witness_WblkSendsThePayload :
    ((0x00 : Byte).toNat = 0 ∧ testCfg.bufferSize < (0x91 : Byte).toNat ∧ (0x01 : Byte) ≠ 0) ∧
    ((bench testCfg [] [(1, 0x11)] [] []).pbuf.read 2 = none ∧ (∀ k, k < 2 → 1 ≤ k → ((bench testCfg [] [(1, 0x11)] [] []).pbuf.read k).isSome)) ∧
    (1 ≤ (0x02 : Byte).toNat ∧ (0x02 : Byte).toNat ≤ testCfg.bufferSize ∧ [(0x11 : Byte), 0x22].length = (0x02 : Byte).toNat ∧
      (∀ i, i < 2 → (bench testCfg [] [(1, 0x11), (2, 0x22)] [] []).pbuf.read (1 + i) = [(0x11 : Byte), 0x22][i]?) ∧
      BusAnswers (bench testCfg [] [(1, 0x11), (2, 0x22)] [] []) ∧ (0xfd : Byte) = testCfg.regCmd ∧ 2 ≤ (0x02 : Byte).toNat) := by
  unfold BusAnswers
  decide

theorem test_witness_PayloadBoundIsEnforcedAtDecode :
    (0x00 : Byte).toNat = 0 ∧ (bare [] []).cfg.bufferSize < (0x91 : Byte).toNat ∧ (bare [] []).cfg.valid = true ∧
    ∃ t, exec (.wreg 0 0) (bare [] [.ok]) = .next t ∧ (t.trace.isEmpty == false) = true :=
  ⟨by decide, by decide, by decide, next_of_nextIs (by decide)⟩

theorem test_witness_TransportCommandsShareTheirBehaviour :
    (Instr.wf testCfg (.wreg 0xfd 0) = true ∧ ∃ t, exec (.wreg 0xfd 0) (bare [] [.fail]) = .next t) ∧
    (Instr.wf testCfg (.wblk 0x40 1) = true ∧ ∃ t, exec (.wblk 0x40 1) (bench testCfg [] [(1, 0xab)] [] []) = .next t) :=
  ⟨⟨by decide, completes (by decide)⟩,
   by decide, completes (by decide)⟩

theorem test_witness_ParityBranchGivesFastAndSlow :
    143 < testCfg.bufferSize ∧ slotCol 143 % 2 = 1 ∧ slotCol 128 % 2 = 0 ∧ ReferenceSizes testCfg := by
  unfold ReferenceSizes
  decide

theorem test_witness_GuardSkipsBeyondTheBounds :
    testCfg.guard = .gt ∧ geCfg.guard = .ge ∧ slot (bench geCfg [] [] [] []).cfg 7 = .skip := by decide

/-- A negative fast, a negative slow, neither, and a slot that is not skipped. -/
theorem test_witness_NegativeIntermediatesWrapOnlyWhenUnsigned :
    testCfg.valid = true ∧ 143 < testCfg.bufferSize ∧ testCfg.arith = .unsigned ∧ slotFast testCfg 136 < 0 ∧ slotSlow testCfg 15 < 0 ∧
    0 ≤ slotFast testCfg 7 ∧ 0 ≤ slotSlow testCfg 7 ∧ slot testCfg 7 ≠ .skip ∧ signedCfg.arith = .signed := by decide

/-- In range, out of range above and below, a pixel, and the alias. -/
theorem test_witness_SourceIndexIsInRangeOrOutOfBounds :
    (slot testCfg 134 ≠ .skip ∧ 0 ≤ slotIdx testCfg 134 ∧ slotIdx testCfg 134 < ((testCfg.width * testCfg.height : Nat) : Int)) ∧
    (slot testCfg 7 ≠ .skip ∧ ¬ (0 ≤ slotIdx testCfg 7 ∧ slotIdx testCfg 7 < ((testCfg.width * testCfg.height : Nat) : Int))) ∧
    slot testCfg 134 = .read 118 ∧
    (0 ≤ slotFast testCfg 126 ∧ slotFast testCfg 126 < (testCfg.width : Int) ∧ 0 ≤ slotSlow testCfg 126 ∧
      slotSlow testCfg 126 < (testCfg.height : Int)) ∧
    slotFast testCfg 136 = -1 ∧ testCfg.valid = true ∧ slot testCfg 7 = .oob 127 ∧ slot signedCfg 143 = .oob (-18) := by decide

theorem test_witness_ReferenceSlotTableHasItsClosedForms :
    ReferenceSizes testCfg ∧ ReferenceSizes geCfg ∧ ReferenceSizes signedCfg ∧ testCfg.arith = .unsigned := by
  unfold ReferenceSizes
  decide

/-- The first unwritten cell is that of slot 1: slot 0's cell is written. -/
theorem test_witness_MapWritesEachSlotByItsVerdict :
    FirstUnwritten (bench testCfg [(8, 0x0f)] [] [] []) 1 25 ∧ (ready []).ReadyToMap ∧ (0x000001 : BitVec 24) ≠ 0 := by
  refine ⟨⟨by decide, by decide, by decide, fun k i hk hs => ?_⟩, ready_readyToMap [], by decide⟩
  have h0 : k = 0 := by omega
  subst h0
  have h8 : (.read 8 : Slot) = .read i := hs
  cases h8
  decide

theorem test_witness_MapEndsOkUnlessACellIsUnwritten :
    (∃ t, exec .map (ready []) = .next t) ∧ (ready []).ReadyToMap ∧ exec .map (bare [] []) = .fault (.unwritten .lbuf 8) :=
  ⟨ready_map, ready_readyToMap [], fault_of_faultIs (by decide)⟩

/-- Two runs whose draws differ; and a configuration without an out-of-range slot. -/
theorem test_witness_MapIsDeterministicOutsideOobSlots :
    ((ready []).cfg = ({ ready [] with byteDraws := 5 }).cfg ∧ (ready []).lbuf = ({ ready [] with byteDraws := 5 }).lbuf ∧
      (ready []).pbuf = ({ ready [] with byteDraws := 5 }).pbuf ∧ (∃ t, exec .map (ready []) = .next t) ∧
      ∃ t, exec .map { ready [] with byteDraws := 5 } = .next t) ∧
    ({ tinyCfg with guard := .ge } : Config).valid = true ∧ ({ tinyCfg with guard := .ge } : Config).guard = .ge ∧
    tinyCfg.arith = .unsigned ∧ ∃ t, exec .map (bench { tinyCfg with guard := .ge } [(0, 0x0f)] [] [] []) = .next t :=
  ⟨⟨rfl, rfl, rfl, completes (by decide),
    completes (by decide)⟩,
   by decide, by decide, by decide, completes (by decide)⟩

theorem test_witness_ModelFaultsComeBeforeAnyTransaction :
    FirstUnwritten (bare [] [.never]) 0 8 ∧
    ((0x03 : Byte).toNat ≤ (bare [] []).cfg.bufferSize ∧ (bench testCfg [] [(1, 0x11), (3, 0x33)] [] []).pbuf.read 2 = none ∧
      ((bench testCfg [] [(1, 0x11), (3, 0x33)] [] []).pbuf.read 1).isSome) :=
  ⟨⟨by decide, by decide, by decide, fun _ _ hk _ => absurd hk (Nat.not_lt_zero _)⟩, by decide⟩

theorem test_witness_DrawSendsTheMappedFrame :
    FirstUnwritten (bare [] []) 0 8 ∧ (ready [.ok]).ReadyToMap ∧ BusAnswers (ready [.ok]) ∧ (0x800000 : BitVec 24) ≠ 0 :=
  ⟨⟨by decide, by decide, by decide, fun _ _ hk _ => absurd hk (Nat.not_lt_zero _)⟩, ready_readyToMap _, by unfold BusAnswers; decide,
   by decide⟩

theorem test_witness_DrawIssuesExactlyOneTransaction :
    (∃ t, exec .draw (ready []) = .next t) ∧ exec .draw (bench tinyCfg [] [] [] []) = .fault (.unwritten .lbuf 0) :=
  ⟨ready_draw, fault_of_faultIs (by decide)⟩

theorem test_witness_DrawDoesNotDependOnOldPbuf :
    (∃ t, exec .draw (ready [.fail]) = .next t) ∧ exec .draw (ready [.never]) = .fault .busNeverAnswers :=
  ⟨completes (by decide), fault_of_faultIs (by decide)⟩

theorem test_witness_DrawKeepsThePage :
    (ready [.ok]).cfg.regImage ≠ (ready [.ok]).cfg.regCmd ∧ ∃ t, exec .draw (ready [.ok]) = .next t :=
  ⟨by decide, completes (by decide)⟩

theorem test_witness_WblkAfterDrawResendsTheFrame :
    (ready [.ok, .fail]).cfg.valid = true ∧ ∃ t, exec .draw (ready [.ok, .fail]) = .next t ∧ BusAnswers t := by
  refine ⟨by decide, ?_⟩
  obtain ⟨t, ht, h⟩ := next_of_nextIs (o := exec .draw (ready [.ok, .fail])) (p := fun t => t.busIn.head? != some .never)
    (by decide)
  exact ⟨t, ht, by simpa [BusAnswers] using h⟩

theorem test_witness_InitSequenceIsTheNineSteps : testCfg.width = 17 ∧ ∃ t, exec .init (bare [] []) = .next t :=
  ⟨by decide, completes (by decide)⟩

/-- A bus whose answers are all open, and one that fails before it would stop answering. -/
theorem test_witness_InitStopsAtTheFirstFailure :
    BusAnswersUpTo (bare [] []) 9 ∧ BusAnswersUpTo (bare [] [.ok, .fail, .never]) 9 ∧ (0x0000ff : BitVec 24) ≠ 0 := by
  refine ⟨fun k _ _ => by simp [bare, bench], fun k hk hbefore => ?_, by decide⟩
  interval_cases k
  · decide
  · decide
  · exact absurd (hbefore 1 (by decide)) (by decide)
  all_goals simp [bare, bench]

/-- All nine ok; the first step failing and the last. -/
theorem test_witness_InitRecordsFollowTheAnswers :
    (bare [] nineOks).BusOk 9 ∧ (BusFailsAt (bare [] [.fail]) 0 ∧ (initSequence testCfg)[0]? = some [0xfd, 0x0b]) ∧
    (BusFailsAt (bare [] [.ok, .ok, .ok, .ok, .ok, .ok, .ok, .ok, .fail]) 8 ∧ (initSequence testCfg)[8]? = some [0xfd, 0x00]) := by
  refine ⟨busOk_of_nineOks (rest := []) rfl, ?_, ?_⟩ <;> unfold BusFailsAt <;> decide

/-- An INIT that failed at step 2, and a bus that then answers. -/
theorem test_witness_InitMayBeRepeated :
    ∃ t, exec .init (bare [] (.ok :: .fail :: nineOks)) = .next t ∧ t.BusOk 9 ∧ BusAnswersUpTo t 9 := by
  obtain ⟨t, ht, h⟩ := next_of_nextIs (o := exec .init (bare [] (.ok :: .fail :: nineOks))) (p := fun t => t.busIn == nineOks ++ [])
    (by decide)
  have hok : t.BusOk 9 := busOk_of_nineOks (eq_of_beq h)
  refine ⟨t, ht, hok, fun k hk _ hn => ?_⟩
  rw [hok k hk] at hn
  cases hn

/-- Every clause: the completed INIT, and a failure at steps 1, 7 and 9, at 2 and 6, and at 8. -/
theorem test_witness_InitLeavesTheControllerPage :
    testCfg.regMode ≠ testCfg.regCmd ∧ testCfg.regFrame ≠ testCfg.regCmd ∧ testCfg.regNullA ≠ testCfg.regCmd ∧
    testCfg.regNullB ≠ testCfg.regCmd ∧ (0x0a : Byte) ≠ testCfg.regCmd ∧ (bare [] nineOks).BusOk 9 ∧
    (∀ k, k < 9 → BusFailsAt (bare [] (List.replicate k .ok ++ [.fail])) k) := by
  refine ⟨by decide, by decide, by decide, by decide, by decide, busOk_of_nineOks (rest := []) rfl, ?_⟩
  unfold BusFailsAt
  decide

/-- Every command, completed. -/
theorem test_witness_EachCommandPutsItsBytesOnTheBus :
    (∃ t, exec (.wreg 0 0) (bare [] []) = .next t) ∧
    (legalLength testCfg 0x01 = true ∧ ∃ t, exec (.wblk 0x40 0x01) (bench testCfg [] [(1, 0xab)] [] []) = .next t) ∧
    (∃ t, exec .map (ready []) = .next t) ∧ (∃ t, exec .draw (ready []) = .next t) ∧ (∃ t, exec .init (bare [] []) = .next t) ∧
    (IllegalByR57 testCfg 0 ∧ ∃ t, writeCmd 0 (bare [] []) = .next t) :=
  ⟨completes (by decide),
   ⟨by decide, completes (by decide)⟩,
   ready_map, ready_draw,
   completes (by decide),
   ⟨by unfold IllegalByR57; decide, completes (by decide)⟩⟩

/-- A command that fails, a MAP, and an illegal word. -/
theorem test_witness_BusErrorComesOnlyFromAFailedTransaction :
    (∃ t, writeCmd 0x01000A01 (bare [] [.fail]) = .next t ∧ (t.result == 1) = true) ∧
    (decode (ready []).cfg 0x03000000 = .ok .map ∧ ∃ t, writeCmd 0x03000000 (ready []) = .next t) ∧
    (IllegalByR57 (bare [] []).cfg 0 ∧ ∃ t, writeCmd 0 (bare [] []) = .next t) :=
  ⟨next_of_nextIs (by decide), ⟨rfl, completes (by decide)⟩,
   ⟨by unfold IllegalByR57; decide, completes (by decide)⟩⟩

/-- A bus that never answers, with the payload and LBUF ready; one that stops answering at INIT's last step. -/
theorem test_witness_ABusThatNeverAnswersStopsTheCommand :
    (bare [] [.never]).busIn.head? = some .never ∧ legalLength testCfg 0x01 = true ∧
    (bench testCfg [] [(1, 0xab)] [] [.never]).ReadyToSend (0x01 : Byte).toNat ∧ (ready [.never]).ReadyToMap ∧
    ¬ BusAnswersUpTo (bare [] [.ok, .ok, .ok, .ok, .ok, .ok, .ok, .ok, .never]) 9 ∧ IllegalByR57 testCfg 0 := by
  refine ⟨by decide, by decide, fun i h1 h2 => ?_, ready_readyToMap _, fun h => h 8 (by decide) (by decide) (by decide), ?_⟩
  · have h1' : i = 1 := Nat.le_antisymm h2 h1
    subst h1'
    decide
  · unfold IllegalByR57
    decide

/-- The last cell of each window: written, and unwritten. -/
theorem test_witness_HostByteAccessesReachTheirCell :
    testCfg.valid = true ∧ (118 < testCfg.width * testCfg.height ∧ (0x076 : Offset).toNat = 118) ∧
    (144 ≤ testCfg.bufferSize ∧ (0x190 : Offset).toNat = 0x100 + 144) ∧
    (bench testCfg [(118, 0x5a)] [(144, 0x22)] [] []).lbuf.read 118 = some 0x5a ∧
    (bench testCfg [(118, 0x5a)] [(144, 0x22)] [] []).pbuf.read 144 = some 0x22 ∧ (bare [] []).lbuf.read 118 = none ∧
    (bare [] []).pbuf.read 144 = none ∧ (bare [.ld8 0x190] []).hostIn = .ld8 0x190 :: [] := by decide

/-- The ends of every range of offsets, and an access of each kind. -/
theorem test_witness_HostAccessesWithoutMeaningAreRefused :
    (testCfg.valid = true ∧ (bare [.otherWidth 0x077] []).hostIn = .otherWidth 0x077 :: []) ∧
    (ReservedOffset testCfg 0x077 ∧ ReservedOffset testCfg 0x0ff ∧ ReservedOffset testCfg 0x191 ∧ ReservedOffset testCfg 0x1ff ∧
      ReservedOffset testCfg 0x208 ∧ ReservedOffset testCfg 0xfff) ∧
    (BufferOffset testCfg 0x000 ∧ BufferOffset testCfg 0x076 ∧ BufferOffset testCfg 0x100 ∧ BufferOffset testCfg 0x190) ∧
    (0x200 ≤ (0x200 : Offset).toNat ∧ (0x207 : Offset).toNat ≤ 0x207 ∧ (0x202 : Offset) ≠ 0x200 ∧ (0x202 : Offset) ≠ 0x204) ∧
    (AccessAt 0x077 (.ld8 0x077) ∧ WideAccessAt 0x202 (.ld32 0x202) ∧ NotWordAccessAt 0x204 (.st8 0x204 0)) := by
  refine ⟨by decide, ?_, ?_, by decide, .inr (.inl rfl), .inr (.inl rfl), .inl ⟨0, rfl⟩⟩
  · unfold ReservedOffset
    decide
  · unfold BufferOffset
    decide

theorem test_witness_StatusReadsWholeAndClearsOobByOne :
    testCfg.valid = true ∧ (bare [.ld32 0x204] []).hostIn = .ld32 0x204 :: [] ∧
    (bare [.st32 0x204 0x100] []).hostIn = .st32 0x204 0x100 :: [] ∧ (0x100 : Word).getLsbD 8 = true ∧ (0x0ff : Word).getLsbD 8 = false ∧
    (∃ t, exec .map (ready []) = .next t) ∧ (∃ t, exec .draw (ready []) = .next t) ∧ State.reset.result ≠ 3 ∧
    ∃ t, step State.reset = .next t :=
  ⟨by decide, by decide, by decide, by decide, by decide,
   ready_map, ready_draw, by decide,
   completes (by decide)⟩

theorem test_witness_StatusReadSeesTheCommandsResult :
    (bare [.st32 cmdOffset 0x01000A01, .ld32 statusOffset] [.fail]).hostIn = .st32 cmdOffset 0x01000A01 :: .ld32 statusOffset :: [] ∧
    ∃ t, step (bare [.st32 cmdOffset 0x01000A01, .ld32 statusOffset] [.fail]) = .next t :=
  ⟨rfl, completes (by decide)⟩

/-- The invariants of a state that holds something, and a step from it. -/
theorem test_witness_StepKeepsTheBuffersCanonical :
    (bench testCfg [(0, 0x0f), (118, 0x01)] [(144, 0x02)] [.st8 0x076 0x0f] []).BuffersOk ∧
    ∃ t, step (bench testCfg [(0, 0x0f), (118, 0x01)] [(144, 0x02)] [.st8 0x076 0x0f] []) = .next t :=
  ⟨⟨by decide, by decide, by decide, by decide⟩, completes (by decide)⟩

theorem test_witness_StepKeepsStatusLegal :
    ({ bare [.st32 0x204 0x100] [] with status := 0x101 }).StatusOk ∧
    ∃ t, step { bare [.st32 0x204 0x100] [] with status := 0x101 } = .next t :=
  ⟨⟨by decide, by decide⟩, completes (by decide)⟩

theorem test_witness_StepKeepsTransactionsLegal :
    ({ bare [.st32 0x200 0x05000000] [] with trace := [⟨0x74, [0x0a, 0x01], .ok⟩] }).TraceOk ∧
    ∃ t, step { bare [.st32 0x200 0x05000000] [] with trace := [⟨0x74, [0x0a, 0x01], .ok⟩] } = .next t := by
  refine ⟨fun r hr => ?_, completes (by decide)⟩
  have h1 : r = ⟨0x74, [0x0a, 0x01], .ok⟩ := List.mem_singleton.1 hr
  subst h1
  exact ⟨by decide, by decide, by decide⟩

theorem test_witness_TraceOnlyGrows :
    (∃ t, step (bare [.st32 0x200 0x05000000] []) = .next t) ∧ ¬ (bare [.st32 0x200 0x05000000] []).resetNext := by
  refine ⟨completes (by decide), ?_⟩
  unfold State.resetNext
  decide

theorem test_witness_OobIsSticky :
    ({ bare [.st32 0x204 0x0ff] [] with status := 0x100 }).oob = true ∧
    (∃ t, step { bare [.st32 0x204 0x0ff] [] with status := 0x100 } = .next t) ∧
    ¬ ({ bare [.st32 0x204 0x0ff] [] with status := 0x100 }).resetNext ∧
    ¬ ({ bare [.st32 0x204 0x0ff] [] with status := 0x100 }).clearsOobNext := by
  refine ⟨by decide, completes (by decide), ?_, ?_⟩
  · unfold State.resetNext
    decide
  · rintro ⟨v, hv, h8⟩
    have hv' : v = 0x0ff := by simpa [bare, bench, statusOffset] using hv.symm
    subst hv'
    exact absurd h8 (by decide)

theorem test_witness_WrittenCellsStayWritten :
    ((bench testCfg [] [(0, 0x11)] [.st32 0x200 0x01000A01] []).readCell .pbuf 0).isSome ∧
    (∃ t, step (bench testCfg [] [(0, 0x11)] [.st32 0x200 0x01000A01] []) = .next t) ∧
    ¬ (bench testCfg [] [(0, 0x11)] [.st32 0x200 0x01000A01] []).resetNext := by
  refine ⟨by decide, completes (by decide), ?_⟩
  unfold State.resetNext
  decide

/-- A host byte write of another cell. -/
theorem test_witness_OnlyTheHostWritesLbuf :
    (∃ t, exec .init (bare [] []) = .next t) ∧ (∃ t, step (bare [.st8 0x005 0x0f] []) = .next t) ∧
    ¬ (bare [.st8 0x005 0x0f] []).resetNext ∧
    ∀ (off : Offset) (b : Byte), (bare [.st8 0x005 0x0f] []).hostIn.head? = some (.st8 off b) → off.toNat ≠ 6 := by
  refine ⟨completes (by decide),
    completes (by decide), ?_, fun off b h => ?_⟩
  · unfold State.resetNext
    decide
  · have h5 : HostEvent.st8 0x005 0x0f = .st8 off b := Option.some.inj h
    cases h5
    decide

theorem test_witness_CommandsWriteOnlyTheirCells :
    (∃ t, exec (.wreg 0 0) (bare [] []) = .next t) ∧ (∃ t, exec (.wblk 0x40 0x01) (bench testCfg [] [(1, 0xab)] [] []) = .next t) ∧
    (∃ t, exec .map (ready []) = .next t) ∧ (∃ t, exec .draw (ready []) = .next t) ∧ ∃ t, exec .init (bare [] []) = .next t :=
  ⟨completes (by decide),
   completes (by decide),
   ready_map, ready_draw,
   completes (by decide)⟩

end Sys2Proof.Tests
end

section
/-! Proofs of the statements of spec 00 (scope): which configurations a model takes, and what a step does at any other. -/

namespace Sys2Proof.Proofs

open Sys2Proof.Machine

/-- The bounds of spec 00 R15 in terms of the three sizes (`ENABLE_LEN` is `WIDTH+1`, `MAX_PAYLOAD` is `BUFFER_SIZE`). -/
theorem config_valid_iff (c : Config) :
    c.valid = true ↔
      1 ≤ c.width ∧ 1 ≤ c.height ∧ c.width * c.height ≤ 256 ∧ 1 ≤ c.bufferSize ∧ c.bufferSize ≤ 255 ∧
      c.width + 1 ≤ c.bufferSize := by
  simp only [Config.valid, Bool.and_eq_true, decide_eq_true_eq, and_assoc]
  simp only [Config.enableLen, Config.maxPayload]

/-- R15 restricts the sizes 17, 7 and 144 only, so the OPEN parameters of R11 do not matter here. -/
theorem config_reference_valid : Config.reference.valid = true :=
  (config_valid_iff _).2 (by decide)

/-- The refusal comes before the queue of the outside is looked at (spec 60 R105). -/
theorem step_of_not_valid {s : State} (hv : s.cfg.valid = false) : step s = .refused .configuration := by
  simp [step, turn, hv]

/-- Settles O3: the conjuncts of the validity check are the bounds of R15, and the check stands before everything else a step does. -/
theorem configurationsOutsideTheBoundsAreRefused : Obligations.ConfigurationsOutsideTheBoundsAreRefused :=
  fun s => ⟨config_valid_iff s.cfg, step_of_not_valid, config_reference_valid⟩

end Sys2Proof.Proofs
end

section
/-! Facts about what a command and a step keep (spec 10): the layer the statements of spec 10 are settled from. -/

namespace Sys2Proof.Machine

/-! ## Buffers that change by writes of existing cells only -/

/-- `m'` comes from `m` by byte writes of cells below `n`. -/
inductive Memory.Writes (n : Nat) (m : Memory) : Memory → Prop where
  | refl : Memory.Writes n m m
  | write {m' : Memory} (h : Memory.Writes n m m') {i : Nat} (hi : i < n) (v : Byte) : Memory.Writes n m (m'.write i v)

namespace Memory.Writes

variable {n : Nat} {m m' m'' : Memory}

theorem trans (h : Memory.Writes n m m') (k : Memory.Writes n m' m'') : Memory.Writes n m m'' := by
  induction k with
  | refl => exact h
  | write _ hi v ih => exact ih.write hi v

theorem wf (h : Memory.Writes n m m') (hm : m.wf) : m'.wf := by
  induction h with
  | refl => exact hm
  | write _ _ v ih => exact Memory.write_wf ih _ v

theorem within (h : Memory.Writes n m m') (hm : m.within n) : m'.within n := by
  induction h with
  | refl => exact hm
  | write _ hi v ih => exact Memory.write_within ih hi v

/-- Nothing makes a written cell unwritten (spec 10 R24). -/
theorem isSome_read (h : Memory.Writes n m m') {i : Nat} (hi : (m.read i).isSome) : (m'.read i).isSome := by
  induction h with
  | refl => exact hi
  | write _ _ v ih =>
    rw [Memory.read_write]
    split
    · rfl
    · exact ih

theorem read_beyond (h : Memory.Writes n m m') {i : Nat} (hi : n ≤ i) : m'.read i = m.read i := by
  induction h with
  | refl => rfl
  | write _ hlt v ih => rw [Memory.read_write_other _ v (by omega), ih]

theorem fill (m : Memory) (v : Byte) {is : List Nat} (his : ∀ i ∈ is, i < n) : Memory.Writes n m (m.fill v is) := by
  induction is generalizing m with
  | nil => exact .refl
  | cons i rest ih =>
    have hfirst : Memory.Writes n m (m.write i v) := Memory.Writes.refl.write (his i List.mem_cons_self) v
    exact hfirst.trans (ih _ (fun k hk => his k (List.mem_cons_of_mem _ hk)))

end Memory.Writes

/-! ## What a command does before its end -/

/-- `u` comes from `s` by work on existing PBUF cells; what else differs is STATUS and the count of draws at most. -/
structure PbufWork (s u : State) : Prop where
  cfg : u.cfg = s.cfg
  lbuf : u.lbuf = s.lbuf
  trace : u.trace = s.trace
  hostIn : u.hostIn = s.hostIn
  hostOut : u.hostOut = s.hostOut
  pbuf : Memory.Writes (s.cfg.bufferSize + 1) s.pbuf u.pbuf

namespace PbufWork

variable {s u v : State}

theorem refl (s : State) : PbufWork s s := ⟨rfl, rfl, rfl, rfl, rfl, .refl⟩

theorem trans (h : PbufWork s u) (k : PbufWork u v) : PbufWork s v where
  cfg := k.cfg.trans h.cfg
  lbuf := k.lbuf.trans h.lbuf
  trace := k.trace.trans h.trace
  hostIn := k.hostIn.trans h.hostIn
  hostOut := k.hostOut.trans h.hostOut
  pbuf := h.pbuf.trans (h.cfg ▸ k.pbuf)

theorem writeCell (s : State) {i : Nat} (hi : i < s.cfg.bufferSize + 1) (b : Byte) : PbufWork s (s.writeCell .pbuf i b) :=
  ⟨rfl, rfl, rfl, rfl, rfl, Memory.Writes.refl.write hi b⟩

theorem clearPayload (s : State) : PbufWork s s.clearPayload :=
  ⟨rfl, rfl, rfl, rfl, rfl, .fill _ _ fun i hi => by
    obtain ⟨-, hle⟩ := mem_payloadCells.1 hi
    omega⟩

/-- A slot writes its own PBUF cell or nothing (spec 41 R77 to R79). -/
theorem of_mapSlot {j : Nat} (hj : j < s.cfg.bufferSize) (h : mapSlot j s = .next u) : PbufWork s u := by
  have hcell : 1 + j < s.cfg.bufferSize + 1 := by omega
  unfold mapSlot at h
  split at h
  · cases h
    exact .refl _
  · split at h
    · cases h
    · cases h
      exact writeCell s hcell _
  · cases h
    exact ⟨rfl, rfl, rfl, rfl, rfl, Memory.Writes.refl.write hcell _⟩

theorem of_mapSlots {js : List Nat} (hjs : ∀ j ∈ js, j < s.cfg.bufferSize) (h : mapSlots js s = .next u) : PbufWork s u := by
  induction js generalizing s with
  | nil =>
    cases h
    exact .refl _
  | cons j rest ih =>
    obtain ⟨v, hv, hrest⟩ := andThen_next_iff.1 (show andThen (mapSlot j s) (mapSlots rest) = .next u from h)
    have hslot : PbufWork s v := of_mapSlot (hjs j List.mem_cons_self) hv
    exact hslot.trans (ih (fun k hk => hslot.cfg ▸ hjs k (List.mem_cons_of_mem _ hk)) hrest)

theorem of_mapAll (h : mapAll s = .next u) : PbufWork s u := of_mapSlots (fun _ => List.mem_range.1) h

end PbufWork

/-! ## What a command leaves where it completes -/

/-- What every command keeps, and how it ends: RESULT is written last (spec 10 R27). -/
structure CommandEffect (s t : State) : Prop where
  cfg : t.cfg = s.cfg
  lbuf : t.lbuf = s.lbuf
  hostIn : t.hostIn = s.hostIn
  hostOut : t.hostOut = s.hostOut
  pbuf : Memory.Writes (s.cfg.bufferSize + 1) s.pbuf t.pbuf
  trace : ∃ recs, t.trace = s.trace ++ recs ∧ recs.length ≤ 9
  result : ∃ u r, t = State.setResult u r

theorem State.sendAll_eq_setResult (txs : List (List Byte)) (s : State) : ∃ u r, State.sendAll txs s = State.setResult u r := by
  induction txs generalizing s with
  | nil => exact ⟨s, .ok, rfl⟩
  | cons bytes rest ih =>
    simp only [State.sendAll]
    cases s.nextOutcome with
    | ok => exact ih _
    | fail => exact ⟨_, _, rfl⟩

theorem IssuedRecords.length_le {c : Config} {txs : List (List Byte)} {recs : List BusRecord} {r : Result}
    (h : IssuedRecords c txs recs r) : recs.length ≤ txs.length := by
  obtain ⟨hsent, -, -⟩ := h
  simpa using hsent.length_le

/-- A command that ends without a transaction. -/
theorem PbufWork.setResult {s u : State} (h : PbufWork s u) (r : Result) : CommandEffect s (u.setResult r) where
  cfg := h.cfg
  lbuf := h.lbuf
  hostIn := h.hostIn
  hostOut := h.hostOut
  pbuf := h.pbuf
  trace := ⟨[], by simp [h.trace], by simp⟩
  result := ⟨u, r, rfl⟩

/-- A command that ends with its transactions. -/
theorem PbufWork.transact {s u t : State} {txs : List (List Byte)} (h : PbufWork s u) (ht : transact txs u = .next t)
    (hlen : txs.length ≤ 9) : CommandEffect s t := by
  obtain ⟨hcfg, hlbuf, hpbuf, hin, hout, -, -, recs, _, htrace, -, hissued⟩ := transact_next ht
  obtain ⟨-, hsent⟩ := transact_next_iff.1 ht
  exact {
    cfg := hcfg.trans h.cfg
    lbuf := hlbuf.trans h.lbuf
    hostIn := hin.trans h.hostIn
    hostOut := hout.trans h.hostOut
    pbuf := hpbuf ▸ h.pbuf
    trace := ⟨recs, h.trace ▸ htrace, hissued.length_le.trans hlen⟩
    result := hsent ▸ State.sendAll_eq_setResult txs u }

/-- INIT is the command with the most transactions, nine (spec 42 R87); every other has at most one. -/
theorem exec_next_effect {i : Instr} {s t : State} (h : exec i s = .next t) : CommandEffect s t := by
  obtain ⟨reg, val, -, ht⟩ | ⟨reg, len, payload, -, -, -, ht⟩ | ⟨reg, len, -, -, rfl⟩ | ⟨u, -, hu, rfl⟩ |
    ⟨u, payload, -, hu, -, ht⟩ | ⟨-, ht⟩ := exec_next_cases h
  · exact (PbufWork.refl s).transact ht (by simp)
  · exact (PbufWork.writeCell s (Nat.succ_pos _) reg).transact ht (by simp)
  · exact (PbufWork.refl s).setResult .illegal
  · exact (PbufWork.of_mapAll hu).setResult .ok
  · have hmapped : PbufWork s u := (PbufWork.clearPayload s).trans (.of_mapAll hu)
    exact (hmapped.trans (.writeCell u (Nat.succ_pos _) _)).transact ht (by simp)
  · exact (PbufWork.refl s).transact ht (by simp [initSequence])

/-- A CMD write that completes has a command's effect also where its word is illegal. -/
theorem writeCmd_next_effect {w : Word} {s t : State} (h : writeCmd w s = .next t) : CommandEffect s t := by
  unfold writeCmd at h
  split at h
  · exact exec_next_effect h
  · cases h
    exact (PbufWork.refl s).setResult .illegal

/-! ## STATUS stays legal (spec 10 R26, R27) -/

/-- Masking with non-reserved bits leaves the reserved bits 0. -/
theorem reserved_of_masked (x : Word) {mask : Word} (h : mask &&& ~~~statusMask = 0) : x &&& mask &&& ~~~statusMask = 0 := by
  rw [BitVec.and_assoc, h]
  exact BitVec.and_zero

/-- No result has the code 3, and no code a reserved bit. -/
theorem State.statusOk_setResult (s : State) (r : Result) : (s.setResult r).StatusOk where
  reserved := by
    have hcode : r.code &&& ~~~statusMask = 0 := by cases r <;> decide
    rw [State.setResult_status, BitVec.and_or_distrib_right, reserved_of_masked _ (by decide), hcode]
    rfl
  legal := by
    rw [State.result_setResult]
    cases r <;> decide

theorem CommandEffect.statusOk {s t : State} (h : CommandEffect s t) : t.StatusOk := by
  obtain ⟨u, r, rfl⟩ := h.result
  exact State.statusOk_setResult u r

theorem State.reserved_writeStatus (s : State) (v : Word) : (s.writeStatus v).status &&& ~~~statusMask = 0 := by
  rw [State.writeStatus_status]
  split
  · exact reserved_of_masked _ (by decide)
  · exact reserved_of_masked _ (by decide)

theorem State.statusWord_reserved (s : State) {i : Nat} (h2 : 2 ≤ i) (h8 : i ≠ 8) : s.statusWord.getLsbD i = false := by
  by_cases hi : i < 32
  · have hmask : ∀ k < 32, 2 ≤ k → k ≠ 8 → statusMask.getLsbD k = false := by decide
    rw [State.statusWord, BitVec.getLsbD_and, hmask i hi h2 h8, Bool.and_false]
  · exact BitVec.getLsbD_of_ge _ _ (by omega)

theorem State.statusWord_oob (s : State) : s.statusWord.getLsbD 8 = s.oob := by
  simp [State.statusWord, State.oob, statusMask]

theorem State.statusWord_result (s : State) : s.statusWord.extractLsb' 0 2 = s.result := by
  rw [State.statusWord, BitVec.extractLsb'_and, State.result, show statusMask.extractLsb' 0 2 = BitVec.allOnes 2 by decide,
    BitVec.and_allOnes]

/-! ## What an event of the outside leaves -/

namespace EventEffect

variable {e : HostEvent} {s t : State}

theorem cfg (h : EventEffect e s t) : t.cfg = s.cfg := by
  cases h with
  | command _ _ _ _ _ ht => exact (writeCmd_next_effect ht).cfg
  | _ => rfl

/-- LBUF changes only by a host byte write of one of its cells (spec 10 R21) or by a reset. -/
theorem lbuf (h : EventEffect e s t) (he : e ≠ .reset) :
    t.lbuf = s.lbuf ∨ ∃ off b i, e = .st8 off b ∧ region s.cfg off = .lbuf i ∧ t.lbuf = s.lbuf.write i b := by
  cases h with
  | writeLbuf off b i _ hi => exact .inr ⟨off, b, i, rfl, hi, rfl⟩
  | command _ _ _ _ _ ht => exact .inl (writeCmd_next_effect ht).lbuf
  | reset => exact absurd rfl he
  | _ => exact .inl rfl

theorem lbuf_writes (h : EventEffect e s t) (he : e ≠ .reset) : Memory.Writes s.cfg.logicalSize s.lbuf t.lbuf := by
  obtain heq | ⟨off, b, i, -, hi, heq⟩ := h.lbuf he
  · exact heq ▸ .refl
  · obtain ⟨-, -, hlt⟩ := region_lbuf_iff.1 hi
    exact heq ▸ Memory.Writes.refl.write hlt b

theorem pbuf_writes (h : EventEffect e s t) (he : e ≠ .reset) : Memory.Writes (s.cfg.bufferSize + 1) s.pbuf t.pbuf := by
  cases h with
  | writePbuf off b i _ hi =>
    obtain ⟨-, -, hle⟩ := region_pbuf_iff.1 hi
    exact Memory.Writes.refl.write (Nat.lt_succ_of_le hle) b
  | command _ _ _ _ _ ht => exact (writeCmd_next_effect ht).pbuf
  | reset => exact absurd rfl he
  | _ => exact .refl

theorem buffersOk (h : EventEffect e s t) (hs : s.BuffersOk) : t.BuffersOk := by
  by_cases he : e = .reset
  · subst he
    cases h
    exact ⟨.nil, by simp, .nil, by simp⟩
  · exact {
      lbufWf := (h.lbuf_writes he).wf hs.lbufWf
      lbufWithin := h.cfg ▸ (h.lbuf_writes he).within hs.lbufWithin
      pbufWf := (h.pbuf_writes he).wf hs.pbufWf
      pbufWithin := h.cfg ▸ (h.pbuf_writes he).within hs.pbufWithin }

theorem trace (h : EventEffect e s t) (he : e ≠ .reset) : ∃ recs, t.trace = s.trace ++ recs ∧ recs.length ≤ 9 := by
  cases h with
  | command _ _ _ _ _ ht => exact (writeCmd_next_effect ht).trace
  | reset => exact absurd rfl he
  | _ => exact ⟨[], by simp, by simp⟩

/-- STATUS is kept, or the reserved bits are 0 after the event and RESULT is kept or legal. -/
theorem status (h : EventEffect e s t) :
    t.status = s.status ∨ (t.status &&& ~~~statusMask = 0 ∧ (s.result ≠ 3 → t.result ≠ 3)) := by
  cases h with
  | command _ _ _ _ _ ht =>
    have hok := (writeCmd_next_effect ht).statusOk
    exact .inr ⟨hok.reserved, fun _ => hok.legal⟩
  | writeStatus _ w => exact .inr ⟨State.reserved_writeStatus s w, by simp⟩
  | reset => exact .inr ⟨by simp, fun _ => show (0 : Word).extractLsb' 0 2 ≠ 3 by decide⟩
  | writeLbuf => exact .inl (State.writeCell_status ..)
  | writePbuf => exact .inl (State.writeCell_status ..)
  | readByte => exact .inl rfl
  | readStatus => exact .inl rfl

theorem result_ne_three (h : EventEffect e s t) (hs : s.result ≠ 3) : t.result ≠ 3 := by
  obtain heq | ⟨-, hlegal⟩ := h.status
  · rwa [State.result, heq]
  · exact hlegal hs

theorem statusOk (h : EventEffect e s t) (hs : s.StatusOk) : t.StatusOk where
  reserved := by
    obtain heq | ⟨hreserved, -⟩ := h.status
    · rw [heq, hs.reserved]
    · exact hreserved
  legal := h.result_ne_three hs.legal

end EventEffect

/-- An invariant that does not look at the queue of the outside holds after a step where every event keeps it. -/
theorem step_keeps {P : State → Prop} (hqueue : ∀ s rest, P s → P { s with hostIn := rest })
    (hevent : ∀ e s t, EventEffect e s t → P s → P t) {s t : State} (h : step s = .next t) (hs : P s) : P t := by
  obtain ⟨-, ⟨-, rfl⟩ | ⟨e, rest, -, he⟩⟩ := step_next_cases h
  · exact hs
  · exact hevent e _ t he (hqueue s rest hs)

/-- A step that is no reset idles or takes another event. -/
theorem step_next_of_not_reset {s t : State} (h : step s = .next t) (hr : ¬ s.resetNext) :
    t = s ∨ ∃ e rest, s.hostIn.head? = some e ∧ e ≠ .reset ∧ EventEffect e { s with hostIn := rest } t := by
  obtain ⟨-, ⟨-, rfl⟩ | ⟨e, rest, hin, he⟩⟩ := step_next_cases h
  · exact .inl rfl
  · have hhead : s.hostIn.head? = some e := by rw [hin, List.head?_cons]
    exact .inr ⟨e, rest, hhead, fun hreset => hr (hhead.trans (congrArg some hreset)), he⟩

end Sys2Proof.Machine
end

section
/-! Proofs of the statements of spec 10 (state): the controller page, the frame of every command, and the invariants of every step. -/

namespace Sys2Proof.Proofs

open Sys2Proof.Machine Sys2Proof.Claims

/-! ## The configuration -/

/-- INIT's transactions and their end do not look at PBUF (spec 42 R86). -/
theorem sendAll_withPbuf (txs : List (List Byte)) (s : State) (p : Memory) :
    State.sendAll txs { s with pbuf := p } = { State.sendAll txs s with pbuf := p } := by
  induction txs generalizing s with
  | nil => rfl
  | cons bytes rest ih =>
    have hout : State.nextOutcome { s with pbuf := p } = s.nextOutcome := State.nextOutcome_congr rfl rfl
    simp only [State.sendAll, hout]
    cases s.nextOutcome with
    | ok => exact ih (s.record bytes)
    | fail => rfl

theorem step_keeps_cfg {s t : State} (h : step s = .next t) : t.cfg = s.cfg :=
  step_keeps (P := fun u => u.cfg = s.cfg) (fun _ _ hu => hu) (fun _ _ _ he hu => he.cfg.trans hu) h rfl

/-- Settles O5: every event keeps the configuration, and INIT's byte lists are functions of it alone. -/
theorem stepKeepsTheConfiguration : Obligations.StepKeepsTheConfiguration := by
  refine ⟨fun s t => step_keeps_cfg, fun i s t h => (exec_next_effect h).cfg, fun s t p h => ?_⟩
  obtain ⟨hstall, rfl⟩ := transact_next_iff.1 (show transact (initSequence s.cfg) s = .next t from h)
  exact transact_next_iff.2 ⟨hstall, (sendAll_withPbuf _ s p).symm⟩

/-! ## The invariants of every step -/

/-- Settles O47: a step changes a buffer by writes of existing cells or empties it. -/
theorem stepKeepsTheBuffersCanonical : Obligations.StepKeepsTheBuffersCanonical := fun _ _ hs h =>
  step_keeps (P := State.BuffersOk)
    (fun _ _ hok => ⟨hok.lbufWf, hok.lbufWithin, hok.pbufWf, hok.pbufWithin⟩) (fun _ _ _ he => he.buffersOk) h hs

/-- Settles O48: every write of STATUS masks the reserved bits, and no result has the code 3. -/
theorem stepKeepsStatusLegal : Obligations.StepKeepsStatusLegal := fun _ _ hs h =>
  step_keeps (P := State.StatusOk) (fun _ _ hok => ⟨hok.reserved, hok.legal⟩) (fun _ _ _ he => he.statusOk) h hs

/-- Settles O50: only a command appends to TRACE, and none issues more than the nine transactions of INIT. -/
theorem traceOnlyGrows : Obligations.TraceOnlyGrows := by
  intro s t h hr
  obtain rfl | ⟨e, rest, -, hne, he⟩ := step_next_of_not_reset h hr
  · exact ⟨[], by simp, by simp⟩
  · exact he.trace hne

/-- Settles O52: without a reset both buffers change by writes only. -/
theorem writtenCellsStayWritten : Obligations.WrittenCellsStayWritten := by
  intro s t b i h hr hi
  obtain rfl | ⟨e, rest, -, hne, he⟩ := step_next_of_not_reset h hr
  · exact hi
  · cases b with
    | lbuf => exact (he.lbuf_writes hne).isSome_read hi
    | pbuf => exact (he.pbuf_writes hne).isSome_read hi

/-- Settles O53: the one event that writes LBUF without a reset is a host byte write, whose offset is the cell's index. -/
theorem onlyTheHostWritesLbuf : Obligations.OnlyTheHostWritesLbuf := by
  refine ⟨fun i s t h => (exec_next_effect h).lbuf, fun s t k h hr hk => ?_⟩
  obtain rfl | ⟨e, rest, hhead, hne, he⟩ := step_next_of_not_reset h hr
  · rfl
  · obtain heq | ⟨off, b, i, rfl, hi, heq⟩ := he.lbuf hne
    · rw [heq]
    · obtain ⟨hoff, -, -⟩ := region_lbuf_iff.1 hi
      have hki : k ≠ i := fun hki => hk off b hhead (hoff.trans hki.symm)
      rw [heq, Memory.read_write_other _ b hki]

/-- Settles O46: after reset the buffers and TRACE are empty and STATUS is 0. -/
theorem resetMeetsTheInvariants : Obligations.ResetMeetsTheInvariants where
  buffers := ⟨State.reset_buffers_wf.1, List.forall_mem_nil _, State.reset_buffers_wf.2, List.forall_mem_nil _⟩
  status := ⟨by decide, by decide⟩
  trace := List.forall_mem_nil _

/-! ## The controller page (spec 10 R29) -/

/-- What R29 asks of a trace whose page is `p`: its last selector write is a 2-byte write of `p` to DEV_ADDR that returned ok. -/
def LastSelects (c : Config) (trace : List BusRecord) (p : Byte) : Prop :=
  ∃ before after, trace = before ++ [⟨c.devAddr, [c.regCmd, p], .ok⟩] ++ after ∧ ∀ r ∈ after, r.bytes.head? ≠ some c.regCmd

theorem lastSelects_snoc_iff {c : Config} {trace : List BusRecord} {r : BusRecord} {p : Byte} :
    LastSelects c (trace ++ [r]) p ↔
      r = ⟨c.devAddr, [c.regCmd, p], .ok⟩ ∨ (r.bytes.head? ≠ some c.regCmd ∧ LastSelects c trace p) := by
  constructor
  · rintro ⟨before, after, htrace, hafter⟩
    obtain rfl | ⟨after', last, rfl⟩ := List.eq_nil_or_concat' after
    · rw [List.append_nil] at htrace
      obtain ⟨-, hr⟩ := List.append_inj' htrace rfl
      exact .inl (List.head_eq_of_cons_eq hr)
    · rw [← List.append_assoc] at htrace
      obtain ⟨rfl, hr⟩ := List.append_inj' htrace rfl
      obtain rfl : r = last := List.head_eq_of_cons_eq hr
      exact .inr ⟨hafter r (by simp), before, after', rfl, fun x hx => hafter x (List.mem_append_left _ hx)⟩
  · rintro (rfl | ⟨hr, before, after, rfl, hafter⟩)
    · exact ⟨trace, [], by simp, by simp⟩
    · refine ⟨before, after ++ [r], by simp, fun x hx => ?_⟩
      obtain hx | hx := List.mem_append.1 hx
      · exact hafter x hx
      · exact List.mem_singleton.1 hx ▸ hr

theorem pageSet_eq_some_iff {c : Config} {r : BusRecord} {p : Byte} :
    r.pageSet c = some p ↔ r = ⟨c.devAddr, [c.regCmd, p], .ok⟩ := by
  constructor
  · intro h
    obtain ⟨addr, bytes, outcome⟩ := r
    unfold BusRecord.pageSet at h
    split at h
    · next reg q hbytes =>
      obtain ⟨⟨rfl, rfl, rfl⟩, hq⟩ := Option.ite_none_right_eq_some.1 h
      obtain rfl : q = p := Option.some.inj hq
      exact congrArg (BusRecord.mk _ · _) hbytes
    · cases h
  · rintro rfl
    simp [BusRecord.pageSet]

theorem ctlPage_snoc (c : Config) (trace : List BusRecord) (r : BusRecord) :
    ctlPage c (trace ++ [r]) = if r.touchesPage c then r.pageSet c else ctlPage c trace := by
  rw [ctlPage, List.foldl_append]
  rfl

/-- By induction from the end of the trace: its last record decides the page, or does not touch it. -/
theorem ctlPage_eq_some_iff (c : Config) (trace : List BusRecord) (p : Byte) :
    ctlPage c trace = some p ↔ LastSelects c trace p := by
  induction trace using List.reverseRecOn with
  | nil => simp [ctlPage, LastSelects]
  | append_singleton trace r ih =>
    rw [ctlPage_snoc, lastSelects_snoc_iff]
    by_cases hr : r.bytes.head? = some c.regCmd
    · rw [if_pos (by simp [BusRecord.touchesPage, hr]), pageSet_eq_some_iff]
      exact ⟨.inl, fun h => h.resolve_right fun ⟨hne, _⟩ => hne hr⟩
    · have hne : r ≠ ⟨c.devAddr, [c.regCmd, p], .ok⟩ := fun heq => hr (by simp [heq])
      rw [if_neg (by simp [BusRecord.touchesPage, hr]), ih]
      exact ⟨fun h => .inr ⟨hr, h⟩, fun h => (h.resolve_left hne).2⟩

/-- Settles O41: the right side is `LastSelects`, written out. -/
theorem controllerPageIsTheLastSelectorWrite : Obligations.ControllerPageIsTheLastSelectorWrite := ctlPage_eq_some_iff

/-! ## The frame of each command -/

theorem execWreg_next {reg val : Byte} {s t : State} (h : exec (.wreg reg val) s = .next t) : t.pbuf = s.pbuf ∧ t.oob = s.oob := by
  obtain ⟨-, -, hpbuf, -, -, -, hoob, -⟩ := transact_next (show transact [[reg, val]] s = .next t from h)
  exact ⟨hpbuf, hoob⟩

theorem execInit_next {s t : State} (h : exec .init s = .next t) : t.pbuf = s.pbuf ∧ t.oob = s.oob := by
  obtain ⟨-, -, hpbuf, -, -, -, hoob, -⟩ := transact_next (show transact (initSequence s.cfg) s = .next t from h)
  exact ⟨hpbuf, hoob⟩

/-- A block write stores the register in PBUF[0] and sends (spec 40 R65). -/
theorem blockWrite_next_frame {reg : Byte} {n : Nat} {s t : State} (h : blockWrite reg n s = .next t) :
    t.pbuf = s.pbuf.write 0 reg ∧ t.oob = s.oob := by
  obtain ⟨payload, -, ht⟩ := blockWrite_next_iff.1 h
  obtain ⟨-, -, hpbuf, -, -, -, hoob, -⟩ := transact_next ht
  exact ⟨hpbuf, hoob.trans (congrArg (BitVec.getLsbD · 8) (State.writeCell_status ..))⟩

theorem execWblk_next {reg len : Byte} {s t : State} (h : exec (.wblk reg len) s = .next t) :
    (∀ i, i ≠ 0 → t.pbuf.read i = s.pbuf.read i) ∧ t.oob = s.oob := by
  have h : (if legalLength s.cfg len then blockWrite reg len.toNat s else raiseIllegal s) = .next t := h
  split at h
  · obtain ⟨hpbuf, hoob⟩ := blockWrite_next_frame h
    exact ⟨fun i hi => hpbuf ▸ Memory.read_write_other s.pbuf reg hi, hoob⟩
  · cases h
    exact ⟨fun _ _ => rfl, State.oob_setResult s .illegal⟩

theorem execMap_next {s t : State} (h : exec .map s = .next t) :
    ∃ u, LoopEffect s.cfg.bufferSize s u ∧ t = u.setResult .ok := by
  obtain ⟨u, hu, ht⟩ := andThen_next_iff.1 (show andThen (mapAll s) complete = .next t from h)
  cases ht
  exact ⟨u, mapSlots_next hu, rfl⟩

theorem execDraw_next {s t : State} (h : exec .draw s = .next t) :
    ∃ u, LoopEffect s.cfg.bufferSize s.clearPayload u ∧ blockWrite u.cfg.regImage u.cfg.bufferSize u = .next t := by
  obtain ⟨u, hu, hsend⟩ := andThen_next_iff.1 (show andThen (mapAll s.clearPayload) sendFrame = .next t from h)
  exact ⟨u, mapSlots_next hu, hsend⟩

/-- Settles O54: each clause from what its command does; MAP's cells are the slot loop's, and no command reaches beyond PBUF. -/
theorem commandsWriteOnlyTheirCells : Obligations.CommandsWriteOnlyTheirCells := by
  refine fun s t => ⟨fun _ _ => execWreg_next, fun _ _ => execWblk_next, fun h => ?map, fun h i hi => ?draw, execInit_next,
    fun i h => ?every⟩
  case map =>
    obtain ⟨u, hloop, rfl⟩ := execMap_next h
    exact ⟨hloop.other, hloop.trace, hloop.busIn, hloop.busDraws⟩
  case draw => exact (exec_next_effect h).pbuf.read_beyond hi
  case every =>
    have heff := exec_next_effect h
    exact ⟨⟨heff.cfg, heff.hostIn, heff.hostOut⟩, heff.lbuf⟩

/-! ## STATUS and CMD at their offsets (spec 10 R25, R26) -/

theorem step_readStatus {s : State} {rest : List HostEvent} (hv : s.cfg.valid = true) (hin : s.hostIn = .ld32 statusOffset :: rest) :
    step s = .next { s with hostIn := rest, hostOut := s.hostOut ++ [.word s.statusWord] } := by
  have hregion : region s.cfg statusOffset = .status 0 := region_status_iff.2 (by decide)
  rw [step_of_event hv hin]
  simp only [hostEvent, hostLd32, hregion, if_true]
  rfl

theorem step_writeStatus {s : State} {rest : List HostEvent} {v : Word} (hv : s.cfg.valid = true)
    (hin : s.hostIn = .st32 statusOffset v :: rest) : step s = .next (State.writeStatus { s with hostIn := rest } v) := by
  have hregion : region s.cfg statusOffset = .status 0 := region_status_iff.2 (by decide)
  rw [step_of_event hv hin]
  simp only [hostEvent, hostSt32, hregion, if_true]

theorem step_writeCmd {s : State} {rest : List HostEvent} {w : Word} (hv : s.cfg.valid = true)
    (hin : s.hostIn = .st32 cmdOffset w :: rest) : step s = writeCmd w { s with hostIn := rest } := by
  have hregion : region s.cfg cmdOffset = .cmd 0 := region_cmd_iff.2 (by decide)
  rw [step_of_event hv hin]
  simp only [hostEvent, hostSt32, hregion, if_true]

theorem writeCmd_of_decode {s : State} {w : Word} {i : Instr} (h : decode s.cfg w = .ok i) : writeCmd w s = exec i s := by
  rw [writeCmd, h]

/-- MAP and DRAW run the same slot loop, and only it sets OOB (spec 41 R78). -/
theorem oob_of_mapping {s t : State} (h : exec .map s = .next t ∨ exec .draw s = .next t) : t.oob = (s.oob || hasOob s.cfg) := by
  obtain h | h := h
  · obtain ⟨u, hloop, rfl⟩ := execMap_next h
    rw [State.oob_setResult, hloop.oob, hasOob]
  · obtain ⟨u, hloop, hsend⟩ := execDraw_next h
    obtain ⟨-, hoob⟩ := blockWrite_next_frame hsend
    rw [hoob, hloop.oob, hasOob]
    rfl

/-- Settles O44: the two accesses by their own steps, MAP and DRAW by the slot loop, and RESULT by what every event leaves. -/
theorem statusReadsWholeAndClearsOobByOne : Obligations.StatusReadsWholeAndClearsOobByOne := by
  refine ⟨fun s rest hv hin => ?read, fun s rest v hv hin => ?write, fun _ _ => oob_of_mapping, fun s t hs h => ?result, by decide⟩
  case read =>
    exact ⟨s.statusWord, step_readStatus hv hin, s.statusWord_result, s.statusWord_oob, fun i => s.statusWord_reserved⟩
  case write =>
    refine ⟨_, step_writeStatus hv hin, State.result_writeStatus .., fun h8 => ?_, fun h8 => ?_,
      fun i => State.statusWord_reserved _, rfl, rfl, rfl, rfl, rfl, rfl, rfl, rfl⟩
    · rw [State.oob_writeStatus, h8, Bool.not_true, Bool.and_false]
    · rw [State.oob_writeStatus, h8, Bool.not_false, Bool.and_true]
      rfl
  case result => exact step_keeps (P := fun u => u.result ≠ 3) (fun _ _ hu => hu) (fun _ _ _ he => he.result_ne_three) h hs

/-- Settles O12: the step writes the word to CMD, which decodes it; `withFetchWord` puts that access in front and taking it off gives back
the state. -/
theorem stepRunsTheDecodedCommand : Obligations.StepRunsTheDecodedCommand := by
  have hrun : ∀ (s : State) (w : Word) (i : Instr) (rest : List HostEvent), s.cfg.valid = true →
      s.hostIn = .st32 cmdOffset w :: rest → decode s.cfg w = .ok i → step s = exec i { s with hostIn := rest } :=
    fun s w i rest hv hin hdec => (step_writeCmd hv hin).trans (writeCmd_of_decode hdec)
  refine ⟨hrun, fun s w i hv hdec => ?_⟩
  have hbits : BitVec.ofNat 32 (w % 2 ^ 32) = BitVec.ofNat 32 w := BitVec.eq_of_toNat_eq (by simp)
  exact hrun (s.withFetchWord 32 w) _ i s.hostIn hv (State.withFetchWord_hostIn s 32 w) (hbits.symm ▸ hdec)

end Sys2Proof.Proofs
end

section
/-! Facts about the transactions a command issues, where a command waits for the bus, and the host accesses of cells and registers (spec 20):
the layer the statements of spec 20 are settled from. -/

namespace Sys2Proof.Machine

open Sys2Proof.Claims

/-! ## The transactions PAM issues are legal (spec 20 R43, 40 R66) -/

/-- The byte lists a legal transaction may carry. -/
def MaySend (c : Config) (bytes : List Byte) : Prop := 2 ≤ bytes.length ∧ bytes.length ≤ c.bufferSize + 1

/-- A register write needs room for one payload byte. -/
theorem maySend_pair {c : Config} (hv : c.valid = true) (reg val : Byte) : MaySend c [reg, val] := by
  obtain ⟨-, -, -, hsize, -, -⟩ := (Proofs.config_valid_iff c).1 hv
  exact ⟨le_rfl, Nat.succ_le_succ hsize⟩

theorem maySend_block {c : Config} (reg : Byte) {payload : List Byte} (h1 : 1 ≤ payload.length)
    (h2 : payload.length ≤ c.bufferSize) : MaySend c (reg :: payload) :=
  ⟨Nat.succ_le_succ h1, Nat.succ_le_succ h2⟩

/-- The enable array of INIT is the reason R15 bounds `ENABLE_LEN` by `MAX_PAYLOAD`. -/
theorem maySend_initSequence {c : Config} (hv : c.valid = true) : ∀ bytes ∈ initSequence c, MaySend c bytes := by
  obtain ⟨-, -, -, -, -, henable⟩ := (Proofs.config_valid_iff c).1 hv
  have harray : MaySend c (regEnable c :: List.replicate c.enableLen enableByte) :=
    maySend_block _ (by simp [Config.enableLen]) (by simpa [Config.enableLen] using henable)
  simp [initSequence, maySend_pair hv, harray]

theorem IssuedRecords.legal {c : Config} {txs : List (List Byte)} {recs : List BusRecord} {result : Result}
    (h : IssuedRecords c txs recs result) (htxs : ∀ bytes ∈ txs, MaySend c bytes) {r : BusRecord} (hr : r ∈ recs) : r.Legal c := by
  obtain ⟨hsent, haddr, -⟩ := h
  obtain ⟨h2, hmax⟩ := htxs r.bytes (hsent.subset (List.mem_map_of_mem hr))
  exact ⟨haddr r hr, h2, hmax⟩

theorem traceOk_of_transact {s u t : State} {txs : List (List Byte)} (h : PbufWork s u) (ht : transact txs u = .next t)
    (htxs : ∀ bytes ∈ txs, MaySend s.cfg bytes) (hs : s.TraceOk) : t.TraceOk := by
  obtain ⟨hcfg, -, -, -, -, -, -, recs, _, htrace, -, hissued⟩ := transact_next ht
  rw [h.cfg] at hcfg hissued
  intro r hr
  rw [hcfg]
  rw [htrace, h.trace] at hr
  exact (List.mem_append.1 hr).elim (hs r) (hissued.legal htxs)

theorem traceOk_setResult {s u : State} (h : PbufWork s u) (r : Result) (hs : s.TraceOk) : (u.setResult r).TraceOk := by
  intro x hx
  rw [State.setResult_trace, h.trace] at hx
  rw [State.setResult_cfg, h.cfg]
  exact hs x hx

theorem length_of_readAll {m : Memory} {n : Nat} {payload : List Byte} (h : m.readAll (payloadCells n) = .ok payload) :
    payload.length = n :=
  ((readAll_payload_iff m n payload).1 h).1

theorem legalLength_iff {c : Config} {len : Byte} : legalLength c len = true ↔ 1 ≤ len.toNat ∧ len.toNat ≤ c.bufferSize := by
  simp only [legalLength, Bool.and_eq_true, decide_eq_true_eq]
  simp only [Config.maxPayload]

/-- Every command issues legal transactions only, in a legal configuration. -/
theorem exec_next_traceOk {i : Instr} {s t : State} (hv : s.cfg.valid = true) (hs : s.TraceOk) (h : exec i s = .next t) :
    t.TraceOk := by
  obtain ⟨reg, val, -, ht⟩ | ⟨reg, len, payload, -, hlen, hp, ht⟩ | ⟨reg, len, -, -, rfl⟩ | ⟨u, -, hu, rfl⟩ |
    ⟨u, payload, -, hu, hp, ht⟩ | ⟨-, ht⟩ := exec_next_cases h
  · exact traceOk_of_transact (.refl s) ht (by simp [maySend_pair hv]) hs
  · obtain ⟨h1, hmax⟩ := legalLength_iff.1 hlen
    rw [← length_of_readAll hp] at h1 hmax
    exact traceOk_of_transact (.writeCell s (Nat.succ_pos _) reg) ht (by simp [maySend_block reg h1 hmax]) hs
  · exact traceOk_setResult (.refl s) .illegal hs
  · exact traceOk_setResult (.of_mapAll hu) .ok hs
  · obtain ⟨-, -, -, hsize, -, -⟩ := (Proofs.config_valid_iff s.cfg).1 hv
    have hlen : payload.length = s.cfg.bufferSize := length_of_readAll hp
    have hmapped : PbufWork s u := (PbufWork.clearPayload s).trans (.of_mapAll hu)
    have hframe : MaySend s.cfg (s.cfg.regImage :: payload) := maySend_block _ (hlen ▸ hsize) hlen.le
    exact traceOk_of_transact (hmapped.trans (.writeCell u (Nat.succ_pos _) _)) ht (by simp [hframe]) hs
  · exact traceOk_of_transact (.refl s) ht (maySend_initSequence hv) hs

theorem writeCmd_next_traceOk {w : Word} {s t : State} (hv : s.cfg.valid = true) (hs : s.TraceOk) (h : writeCmd w s = .next t) :
    t.TraceOk := by
  unfold writeCmd at h
  split at h
  · exact exec_next_traceOk hv hs h
  · cases h
    exact traceOk_setResult (.refl s) .illegal hs

theorem EventEffect.traceOk {e : HostEvent} {s t : State} (h : EventEffect e s t) (hv : s.cfg.valid = true) (hs : s.TraceOk) :
    t.TraceOk := by
  cases h with
  | command _ _ _ _ _ ht => exact writeCmd_next_traceOk hv hs ht
  | reset => exact List.forall_mem_nil _
  | _ => exact hs

/-! ## Where a command waits for a transaction that is never answered (spec 20 R46) -/

/-- The bus stalls at the first of the answers that is not ok. -/
theorem busStalls_iff_exists (s : State) (n : Nat) :
    s.busStalls n = true ↔ ∃ k, k < n ∧ (∀ m, m < k → s.busIn[m]? = some .ok) ∧ s.busIn[k]? = some .never := by
  simp only [State.busStalls, beq_iff_eq, List.find?_eq_some_iff_getElem, List.getElem_take, List.length_take, lt_min_iff]
  constructor
  · rintro ⟨-, k, ⟨hkn, hk⟩, hnever, hbefore⟩
    refine ⟨k, hkn, fun m hm => ?_, List.getElem?_eq_some_iff.2 ⟨hk, hnever⟩⟩
    exact List.getElem?_eq_some_iff.2 ⟨hm.trans hk, by simpa using hbefore m hm⟩
  · rintro ⟨k, hkn, hbefore, hnever⟩
    obtain ⟨hk, hnever⟩ := List.getElem?_eq_some_iff.1 hnever
    refine ⟨by decide, k, ⟨hkn, hk⟩, hnever, fun m hm => ?_⟩
    obtain ⟨_, hok⟩ := List.getElem?_eq_some_iff.1 (hbefore m hm)
    simp [hok]

theorem busStalls_iff (s : State) (n : Nat) : s.busStalls n = true ↔ ¬ BusAnswersUpTo s n := by
  simp only [busStalls_iff_exists, BusAnswersUpTo, not_forall, not_not, exists_prop]

theorem transact_one_stalls {s : State} (bytes : List Byte) (h : s.busIn.head? = some .never) :
    transact [bytes] s = .fault .busNeverAnswers :=
  transact_fault_iff.2 ⟨s.busStalls_one.2 h, rfl⟩

theorem exists_readAll_of_isSome {m : Memory} {is : List Nat} (h : ∀ i ∈ is, (m.read i).isSome) : ∃ bs, m.readAll is = .ok bs := by
  cases hr : m.readAll is with
  | ok bs => exact ⟨bs, rfl⟩
  | error k =>
    obtain ⟨before, after, rfl, hk, -⟩ := (Memory.readAll_error_iff m is k).1 hr
    have hsome := h k (by simp)
    rw [hk] at hsome
    cases hsome

/-- The payload check comes before the wait (spec 60 R102). -/
theorem blockWrite_stalls {s : State} {n : Nat} (reg : Byte) (hbus : s.busIn.head? = some .never) (hready : s.ReadyToSend n) :
    blockWrite reg n s = .fault .busNeverAnswers := by
  have hcells : ∀ i ∈ payloadCells n, (s.pbuf.read i).isSome := fun i hi => by
    obtain ⟨h1, hn⟩ := mem_payloadCells.1 hi
    exact hready i h1 hn
  obtain ⟨payload, hp⟩ := exists_readAll_of_isSome hcells
  simp only [blockWrite, withPayload, hp]
  exact transact_one_stalls _ hbus

/-- What DRAW's mapping leaves is a payload ready to send, and the bus as it was. -/
theorem mapAll_clearPayload_completes {s : State} (h : s.ReadyToMap) :
    ∃ u, mapAll s.clearPayload = .next u ∧ u.ReadyToSend u.cfg.bufferSize ∧ u.busIn = s.busIn := by
  obtain ⟨u, hu⟩ : ∃ u, mapAll s.clearPayload = .next u := mapSlots_completes h
  have hloop : LoopEffect s.cfg.bufferSize s.clearPayload u := mapSlots_next hu
  refine ⟨u, hu, fun i h1 hi => ?_, hloop.busIn⟩
  obtain ⟨j, rfl⟩ := Nat.exists_eq_add_of_le h1
  have hi : 1 + j ≤ s.cfg.bufferSize := hloop.cfg ▸ hi
  have hj : j < s.cfg.bufferSize := by omega
  rw [hloop.own j hj]
  exact isSome_mappedByte_clearPayload hj h

/-- The slot loop has one reason to fault: an unwritten LBUF cell (spec 41 R80). -/
theorem mapSlots_fault {js : List Nat} {s : State} {f : Fault} (h : mapSlots js s = .fault f) : ∃ idx, f = .unwritten .lbuf idx := by
  induction js generalizing s with
  | nil => cases h
  | cons j rest ih =>
    simp only [mapSlots] at h
    cases hj : mapSlot j s with
    | next u => exact ih (by rwa [hj] at h)
    | fault g =>
      obtain ⟨idx, -, -, rfl⟩ := mapSlot_stops_iff.1 hj
      rw [hj] at h
      cases h
      exact ⟨idx, rfl⟩
    | refused r => exact absurd hj mapSlot_not_refused

/-- MAP issues no transaction, so it cannot wait for one (spec 41 R80). -/
theorem execMap_not_stalled (s : State) : exec .map s ≠ .fault .busNeverAnswers := by
  intro h
  have h : andThen (mapAll s) complete = .fault .busNeverAnswers := h
  cases hm : mapAll s with
  | next u => rw [hm] at h; cases h
  | refused r => rw [hm] at h; cases h
  | fault f =>
    obtain ⟨idx, rfl⟩ := mapSlots_fault hm
    rw [hm] at h
    cases h

/-- The causes of spec 30 R57 in terms of the word's fields. -/
theorem illegalByR57_iff {c : Config} {w : Word} : IllegalByR57 c w ↔
    (opcField w = 0#8 ∨ 6 ≤ (opcField w).toNat) ∨ (opcField w = 1#8 ∧ lenField w ≠ 0#8) ∨ (opcField w = 2#8 ∧ valField w ≠ 0#8) ∨
    ((opcField w = 3#8 ∨ opcField w = 4#8 ∨ opcField w = 5#8) ∧ operandBits w ≠ 0#24) ∨
    (opcField w = 2#8 ∧ legalLength c (lenField w) = false) := by
  have hbits : operandBits w ≠ 0#24 ↔ lenField w ≠ 0#8 ∨ regField w ≠ 0#8 ∨ valField w ≠ 0#8 := by
    refine (not_congr (operandBits_eq_zero_iff w)).trans ?_
    tauto
  have hblock : legalLength c (lenField w) = false ↔ (lenField w).toNat = 0 ∨ c.bufferSize < (lenField w).toNat := by
    rw [← Bool.not_eq_true, legalLength_iff]
    omega
  rw [hbits, hblock]
  rfl

/-- Each cause of spec 30 R57 makes the decoder reject the word. -/
theorem decode_error_of_illegalByR57 {c : Config} {w : Word} (h : IllegalByR57 c w) : ∃ e, decode c w = .error e := by
  obtain hreserved | ⟨hopc, hlen⟩ | ⟨hopc, hval⟩ | ⟨hopc, hbits⟩ | ⟨hopc, hblock⟩ := illegalByR57_iff.1 h
  · have hne : ∀ b : Byte, b ≠ 0 → b.toNat < 6 → opcField w ≠ b := by
      rintro _ h0 h6 rfl
      exact hreserved.elim h0 (Nat.not_le_of_lt h6)
    exact ⟨.reservedOpcode, by simp [decode, hne]⟩
  · exact ⟨.mustBeZero, by simp [decode, hopc, hlen]⟩
  · exact ⟨.mustBeZero, by simp [decode, hopc, hval]⟩
  · obtain hopc | hopc | hopc := hopc <;> exact ⟨.mustBeZero, by simp [decode, hopc, hbits]⟩
  · by_cases hval : valField w = 0#8
    · exact ⟨.blockLength, by simp [decode, hopc, hval, hblock]⟩
    · exact ⟨.mustBeZero, by simp [decode, hopc, hval]⟩

theorem writeCmd_illegal {s : State} {w : Word} (h : IllegalByR57 s.cfg w) : writeCmd w s = raiseIllegal s := by
  unfold writeCmd
  obtain ⟨e, he⟩ := decode_error_of_illegalByR57 h
  rw [he]

/-! ## Host accesses of a buffer cell (spec 20 R37) -/

/-- What the window map says of an offset that holds cell `i` of a buffer. -/
def cellRegion : Buffer → Nat → Region
  | .lbuf, i => .lbuf i
  | .pbuf, i => .pbuf i

theorem region_of_lbuf_cell {c : Config} {off : Offset} {i : Nat} (hv : c.valid = true) (hi : i < c.width * c.height)
    (hoff : off.toNat = i) : region c off = cellRegion .lbuf i := by
  obtain ⟨-, -, hsize, -, -, -⟩ := (Proofs.config_valid_iff c).1 hv
  exact region_lbuf_iff.2 ⟨hoff, by omega, hi⟩

theorem region_of_pbuf_cell {c : Config} {off : Offset} {i : Nat} (hv : c.valid = true) (hi : i ≤ c.bufferSize)
    (hoff : off.toNat = 0x100 + i) : region c off = cellRegion .pbuf i := by
  obtain ⟨-, -, -, -, hsize, -⟩ := (Proofs.config_valid_iff c).1 hv
  exact region_pbuf_iff.2 ⟨hoff, by omega, hi⟩

section
variable {s : State} {rest : List HostEvent} {off : Offset} {b : Buffer} {i : Nat}

theorem step_st8_cell (hv : s.cfg.valid = true) (hr : region s.cfg off = cellRegion b i) {v : Byte}
    (hin : s.hostIn = .st8 off v :: rest) : step s = .next (State.writeCell { s with hostIn := rest } b i v) := by
  rw [step_of_event hv hin]
  cases b <;> simp only [hostEvent, hostSt8, hr, cellRegion]

theorem step_ld8_cell (hv : s.cfg.valid = true) (hr : region s.cfg off = cellRegion b i) (hin : s.hostIn = .ld8 off :: rest) :
    step s = hostReadCell b i { s with hostIn := rest } := by
  rw [step_of_event hv hin]
  cases b <;> simp only [hostEvent, hostLd8, hr, cellRegion]

theorem step_ld8_written (hv : s.cfg.valid = true) (hr : region s.cfg off = cellRegion b i) {v : Byte}
    (hin : s.hostIn = .ld8 off :: rest) (hcell : s.readCell b i = some v) :
    step s = .next { s with hostIn := rest, hostOut := s.hostOut ++ [.byte v] } := by
  have hcell : State.readCell { s with hostIn := rest } b i = some v := hcell
  rw [step_ld8_cell hv hr hin, hostReadCell, hcell]
  rfl

theorem step_ld8_unwritten (hv : s.cfg.valid = true) (hr : region s.cfg off = cellRegion b i) (hin : s.hostIn = .ld8 off :: rest)
    (hcell : s.readCell b i = none) : step s = .fault (.unwritten b i) := by
  have hcell : State.readCell { s with hostIn := rest } b i = none := hcell
  rw [step_ld8_cell hv hr hin, hostReadCell, hcell]

end

/-! ## Host accesses that have no meaning (spec 20 R38) -/

section
variable {s : State} {off : Offset} {e : HostEvent}

theorem hostEvent_reserved (hr : region s.cfg off = .reserved) (he : AccessAt off e) :
    hostEvent e s = .refused (.reservedOffset off) := by
  obtain ⟨b, rfl⟩ | rfl | ⟨w, rfl⟩ | rfl | rfl := he
  · simp only [hostEvent, hostSt8, hr]
  · simp only [hostEvent, hostLd8, hr]
  · simp only [hostEvent, hostSt32, hr]
  · simp only [hostEvent, hostLd32, hr]
  · simp only [hostEvent, hostOtherWidth, hr]

theorem hostEvent_wide_cell {b : Buffer} {i : Nat} (hr : region s.cfg off = cellRegion b i) (he : WideAccessAt off e) :
    hostEvent e s = .refused (.bufferWidth off) := by
  obtain ⟨w, rfl⟩ | rfl | rfl := he
  · cases b <;> simp only [hostEvent, hostSt32, hr, cellRegion]
  · cases b <;> simp only [hostEvent, hostLd32, hr, cellRegion]
  · cases b <;> simp only [hostEvent, hostOtherWidth, hr, cellRegion]

/-- Byte `k` of one of the two registers. -/
def RegisterByte (c : Config) (off : Offset) (k : Nat) : Prop := region c off = .cmd k ∨ region c off = .status k

theorem hostEvent_register_notWord {k : Nat} (hr : RegisterByte s.cfg off k) (he : NotWordAccessAt off e) :
    hostEvent e s = .refused (.registerAccess off) := by
  obtain ⟨b, rfl⟩ | rfl | rfl := he
  · obtain hr | hr := hr <;> simp only [hostEvent, hostSt8, hr]
  · obtain hr | hr := hr <;> simp only [hostEvent, hostLd8, hr]
  · obtain hr | hr := hr <;> simp only [hostEvent, hostOtherWidth, hr]

theorem hostEvent_register_misaligned {k : Nat} (hr : RegisterByte s.cfg off k) (hk : k ≠ 0) (he : WideAccessAt off e) :
    hostEvent e s = .refused (.registerAccess off) := by
  obtain ⟨w, rfl⟩ | rfl | rfl := he
  · obtain hr | hr := hr <;> simp only [hostEvent, hostSt32, hr, if_neg hk]
  · obtain hr | hr := hr <;> simp only [hostEvent, hostLd32, hr, if_neg hk]
  · obtain hr | hr := hr <;> simp only [hostEvent, hostOtherWidth, hr]

theorem exists_registerByte (c : Config) (h1 : 0x200 ≤ off.toNat) (h2 : off.toNat ≤ 0x207) :
    ∃ k, RegisterByte c off k ∧ (off ≠ cmdOffset → off ≠ statusOffset → k ≠ 0) := by
  by_cases h : off.toNat < 0x204
  · refine ⟨off.toNat - 0x200, .inl (region_cmd_iff.2 (by omega)), fun hcmd _ hk => hcmd (BitVec.eq_of_toNat_eq ?_)⟩
    show off.toNat = 0x200
    omega
  · refine ⟨off.toNat - 0x204, .inr (region_status_iff.2 (by omega)), fun _ hstatus hk => hstatus (BitVec.eq_of_toNat_eq ?_)⟩
    show off.toNat = 0x204
    omega

theorem region_of_reservedOffset {c : Config} (h : ReservedOffset c off) : region c off = .reserved := by
  rw [region_reserved_iff]
  simp only [ReservedOffset] at h
  simp only [Config.logicalSize]
  omega

theorem region_of_bufferOffset {c : Config} (hv : c.valid = true) (h : BufferOffset c off) : ∃ b i, region c off = cellRegion b i := by
  obtain hl | ⟨h1, h2⟩ := h
  · exact ⟨.lbuf, _, region_of_lbuf_cell hv hl rfl⟩
  · exact ⟨.pbuf, off.toNat - 0x100, region_of_pbuf_cell hv (by omega) (by omega)⟩

end

end Sys2Proof.Machine
end

section
/-! Proofs of the statements of spec 20 (memory, host window and bus). -/

namespace Sys2Proof.Proofs

open Sys2Proof.Machine Sys2Proof.Claims

/-- Settles O49: a step runs in a legal configuration only, and there every event appends legal records at most. -/
theorem stepKeepsTransactionsLegal : Obligations.StepKeepsTransactionsLegal := by
  intro s t hs h
  obtain ⟨hv, ⟨-, rfl⟩ | ⟨e, rest, -, he⟩⟩ := step_next_cases h
  · exact hs
  · exact he.traceOk hv hs

/-- Settles O40: with a ready payload each command comes to its transaction, and there the bus stalls; MAP faults at an unwritten LBUF cell
only, and an illegal word only raises ILLEGAL. -/
theorem aBusThatNeverAnswersStopsTheCommand : Obligations.ABusThatNeverAnswersStopsTheCommand := by
  refine ⟨fun s reg val => transact_one_stalls _, fun s reg len hbus hlen hready => ?wblk, fun s hbus hready => ?draw,
    fun s hbus => ?init, execMap_not_stalled, fun s w hw => ?illegal⟩
  case wblk =>
    show (if legalLength s.cfg len then blockWrite reg len.toNat s else raiseIllegal s) = _
    rw [if_pos hlen, blockWrite_stalls reg hbus hready]
  case draw =>
    obtain ⟨u, hu, hsend, hkept⟩ := mapAll_clearPayload_completes hready
    show andThen (mapAll s.clearPayload) sendFrame = _
    rw [hu]
    exact blockWrite_stalls _ (hkept ▸ hbus) hsend
  case init => exact transact_fault_iff.2 ⟨(busStalls_iff s 9).2 hbus, rfl⟩
  case illegal =>
    rw [writeCmd_illegal hw, raiseIllegal]
    nofun

/-- Settles O42: the window map names the cell, and the two buffers take the same accesses. -/
theorem hostByteAccessesReachTheirCell : Obligations.HostByteAccessesReachTheirCell := by
  refine fun s rest off i hv => ⟨fun hi hoff => ?lbuf, fun hi hoff => ?pbuf⟩
  case lbuf =>
    have hr := region_of_lbuf_cell hv hi hoff
    refine ⟨fun b hin => ⟨_, step_st8_cell hv hr hin, Memory.read_write_same .., fun k hk => Memory.read_write_other _ b hk, rfl, rfl, rfl,
      rfl, rfl, ⟨rfl, rfl, rfl⟩, rfl⟩, fun v => step_ld8_written hv hr, step_ld8_unwritten hv hr⟩
  case pbuf =>
    have hr := region_of_pbuf_cell hv hi hoff
    refine ⟨fun b hin => ⟨_, step_st8_cell hv hr hin, Memory.read_write_same .., fun k hk => Memory.read_write_other _ b hk, rfl, rfl, rfl,
      rfl, rfl, ⟨rfl, rfl, rfl⟩, rfl⟩, fun v => step_ld8_written hv hr, step_ld8_unwritten hv hr⟩

/-- Settles O43: the window map says what each offset holds, and what it holds refuses the access. -/
theorem hostAccessesWithoutMeaningAreRefused : Obligations.HostAccessesWithoutMeaningAreRefused := by
  intro s rest e off hv hin
  rw [step_of_event hv hin]
  refine ⟨fun hoff => hostEvent_reserved (region_of_reservedOffset hoff), fun hoff he => ?buffer, fun h1 h2 he => ?notWord,
    fun h1 h2 hcmd hstatus he => ?misaligned, ?cmdRead⟩
  case buffer =>
    obtain ⟨b, i, hr⟩ := region_of_bufferOffset hv hoff
    exact hostEvent_wide_cell hr he
  case notWord =>
    obtain ⟨k, hr, -⟩ := exists_registerByte s.cfg h1 h2
    exact hostEvent_register_notWord hr he
  case misaligned =>
    obtain ⟨k, hr, hk⟩ := exists_registerByte s.cfg h1 h2
    exact hostEvent_register_misaligned hr (hk hcmd hstatus) he
  case cmdRead =>
    rintro rfl
    have hr : region s.cfg 0x200 = .cmd 0 := region_cmd_iff.2 (by decide)
    simp only [hostEvent, hostLd32, hr, if_true]

/-- Settles O11: the lanes are the four fields (spec 30 R53), and a word is the word of its fields. -/
theorem byteLanesDecodeAsTheWord : Obligations.ByteLanesDecodeAsTheWord := by
  intro c w
  have hword : wordOfLanes (laneOf w 0) (laneOf w 1) (laneOf w 2) (laneOf w 3) = w := wordOfFields_fields w
  exact ⟨hword, congrArg (decode c) hword⟩

end Sys2Proof.Proofs
end

section
/-! Facts about the command word, illegal words, the bytes a completed command sends and the assembler (spec 30): the layer the statements of
spec 30 are settled from. -/

namespace Sys2Proof

/-! ## The word of a command, and the decoder (spec 30 R53 to R58) -/

/-- The fields of a word determine it. -/
theorem wordOfFields_eq_iff {opc len reg val : Byte} {w : Word} :
    wordOfFields opc len reg val = w ↔ opcField w = opc ∧ lenField w = len ∧ regField w = reg ∧ valField w = val := by
  constructor
  · rintro rfl
    simp
  · rintro ⟨rfl, rfl, rfl, rfl⟩
    exact wordOfFields_fields w

/-- A word without operands: LEN, REG and VAL are together the bits below OPC. -/
theorem wordOfFields_zero_eq_iff {opc : Byte} {w : Word} : wordOfFields opc 0 0 0 = w ↔ opcField w = opc ∧ operandBits w = 0 := by
  rw [wordOfFields_eq_iff, operandBits_eq_zero_iff]

/-- The word of a well-formed command decodes to it (spec 30 R54, R58). -/
theorem decode_encode {c : Config} {i : Instr} (hwf : i.wf c = true) : decode c (encode i) = .ok i := by
  cases i with
  | wreg reg val => simp [encode, decode]
  | wblk reg len =>
    have hlen : legalLength c len = true := hwf
    simp [encode, decode, hlen]
  | map => rfl
  | draw => rfl
  | init => rfl

/-- Only a WBLK can be ill-formed, and its word is then rejected for its length (spec 30 R57 (c)). -/
theorem decode_encode_of_not_wf {c : Config} {i : Instr} (hwf : i.wf c = false) : decode c (encode i) = .error .blockLength := by
  cases i with
  | wblk reg len =>
    have hlen : legalLength c len = false := hwf
    simp [encode, decode, hlen]
  | wreg reg val => cases hwf
  | map => cases hwf
  | draw => cases hwf
  | init => cases hwf

/-- Each branch of the decoder that accepts a word has tested every field the command does not carry. -/
theorem encode_of_decode {c : Config} {w : Word} {i : Instr} (h : decode c w = .ok i) : encode i = w ∧ i.wf c = true := by
  unfold decode at h
  split_ifs at h with hopc hlen hopc hval hblock hopc hbits hopc hbits hopc hbits <;> cases h
  · exact ⟨wordOfFields_eq_iff.2 ⟨hopc, hlen, rfl, rfl⟩, rfl⟩
  · exact ⟨wordOfFields_eq_iff.2 ⟨hopc, rfl, rfl, hval⟩, hblock⟩
  · exact ⟨wordOfFields_zero_eq_iff.2 ⟨hopc, hbits⟩, rfl⟩
  · exact ⟨wordOfFields_zero_eq_iff.2 ⟨hopc, hbits⟩, rfl⟩
  · exact ⟨wordOfFields_zero_eq_iff.2 ⟨hopc, hbits⟩, rfl⟩

/-- The decoder in one line: it inverts the encoder on the well-formed commands. -/
theorem decode_eq_ok_iff {c : Config} {w : Word} {i : Instr} : decode c w = .ok i ↔ encode i = w ∧ i.wf c = true := by
  refine ⟨encode_of_decode, ?_⟩
  rintro ⟨rfl, hwf⟩
  exact decode_encode hwf

theorem decode_eq_ok_iff_of_no_operands {c : Config} {w : Word} {i : Instr} {opc : Byte} (hword : encode i = wordOfFields opc 0 0 0)
    (hwf : i.wf c = true) : decode c w = .ok i ↔ opcField w = opc ∧ operandBits w = 0 := by
  rw [decode_eq_ok_iff, hword, wordOfFields_zero_eq_iff]
  exact and_iff_left hwf

end Sys2Proof

namespace Sys2Proof.Machine

open Sys2Proof.Claims

/-! ## Illegal words (spec 30 R57, 60 R98) -/

/-- Each rejecting branch of the decoder is a cause of spec 30 R57. -/
theorem illegalByR57_of_decode_error {c : Config} {w : Word} {e : IllegalWord} (h : decode c w = .error e) : IllegalByR57 c w := by
  rw [illegalByR57_iff]
  unfold decode at h
  split_ifs at h with h1 hlen h2 hval hblock h3 hbits h4 hbits h5 hbits
  · exact .inr (.inl ⟨h1, hlen⟩)
  · exact .inr (.inr (.inr (.inr ⟨h2, Bool.eq_false_of_not_eq_true hblock⟩)))
  · exact .inr (.inr (.inl ⟨h2, hval⟩))
  · exact .inr (.inr (.inr (.inl ⟨.inl h3, hbits⟩)))
  · exact .inr (.inr (.inr (.inl ⟨.inr (.inl h4), hbits⟩)))
  · exact .inr (.inr (.inr (.inl ⟨.inr (.inr h5), hbits⟩)))
  · refine .inl ?_
    bv_omega

theorem onlyResultChanges_setResult (s : State) (r : Result) : OnlyResultChanges s (s.setResult r) :=
  ⟨State.oob_setResult s r, rfl, rfl, ⟨rfl, rfl, rfl⟩, ⟨rfl, rfl, rfl⟩, rfl⟩

/-! ## The bytes on the bus (spec 30 R62) -/

/-- A transaction that is answered leaves one record to DEV_ADDR. -/
theorem transact_one_trace {bytes : List Byte} {s t : State} (h : transact [bytes] s = .next t) :
    t.trace = s.trace ++ [⟨s.cfg.devAddr, bytes, s.nextOutcome⟩] := by
  obtain ⟨-, rfl⟩ := transact_next_iff.1 h
  rw [State.sendAll_one, State.setResult_trace, State.record_trace]

/-- A block write sends the register and PBUF[1..n]; storing the register in PBUF[0] keeps those cells. -/
theorem blockWrite_next_trace {reg : Byte} {n : Nat} {s t : State} (h : blockWrite reg n s = .next t) :
    ∃ o payload, t.trace = s.trace ++ [⟨s.cfg.devAddr, reg :: payload, o⟩] ∧ payload.length = n ∧
      ∀ i, i < n → payload[i]? = s.pbuf.read (1 + i) ∧ payload[i]? = t.pbuf.read (1 + i) := by
  obtain ⟨payload, hp, ht⟩ := blockWrite_next_iff.1 h
  obtain ⟨hlen, hcell⟩ := (readAll_payload_iff _ _ _).1 hp
  obtain ⟨hpbuf, -⟩ := Proofs.blockWrite_next_frame h
  have htrace := transact_one_trace ht
  rw [State.writeCell_cfg, State.writeCell_trace] at htrace
  refine ⟨_, payload, htrace, hlen, fun i hi => ⟨(hcell i hi).symm, ?_⟩⟩
  rw [hpbuf, Memory.read_write_other _ _ (by omega), hcell i hi]

theorem exec_wblk_of_legalLength {reg len : Byte} {s : State} (h : legalLength s.cfg len = true) :
    exec (.wblk reg len) s = blockWrite reg len.toNat s := if_pos h

/-! ## The assembler (spec 30 R60) -/

/-- An operand makes a field exactly where its value fits. -/
theorem Operand.field_eq_some_iff {c : Config} {w : Nat} {o : Operand} {x : BitVec w} :
    o.field c w = some x ↔ o.value c < 2 ^ w ∧ x = BitVec.ofNat w (o.value c) := by
  unfold Operand.field
  split_ifs with h <;> simp [h, eq_comm]

/-- A line of one operand. -/
theorem Operand.map_field_eq_some_iff {α : Type} {c : Config} {w : Nat} {o : Operand} {f : BitVec w → α} {x : α} :
    (o.field c w).map f = some x ↔ o.value c < 2 ^ w ∧ x = f (BitVec.ofNat w (o.value c)) := by
  simp only [Option.map_eq_some_iff, Operand.field_eq_some_iff, and_assoc, exists_and_left, exists_eq_left, eq_comm (a := x)]

/-- A line of two operands, where more than their size may be asked of them. -/
theorem Operand.bind_fields_eq_some_iff {α : Type} {c : Config} {m n : Nat} {a b : Operand}
    {f : BitVec m → BitVec n → Option α} {x : α} :
    ((a.field c m).bind fun u => (b.field c n).bind (f u)) = some x ↔
      a.value c < 2 ^ m ∧ b.value c < 2 ^ n ∧ f (BitVec.ofNat m (a.value c)) (BitVec.ofNat n (b.value c)) = some x := by
  simp only [Option.bind_eq_some_iff, Operand.field_eq_some_iff, and_assoc, exists_and_left, exists_eq_left]

/-- A line of two operands that only have to fit. -/
theorem Operand.bind_fields_some_eq_some_iff {α : Type} {c : Config} {m n : Nat} {a b : Operand} {f : BitVec m → BitVec n → α} {x : α} :
    ((a.field c m).bind fun u => (b.field c n).bind fun v => some (f u v)) = some x ↔
      a.value c < 2 ^ m ∧ b.value c < 2 ^ n ∧ x = f (BitVec.ofNat m (a.value c)) (BitVec.ofNat n (b.value c)) := by
  rw [Operand.bind_fields_eq_some_iff, Option.some.injEq, eq_comm (b := x)]

/-- A length that fits its field is the field's value. -/
theorem legalLength_ofNat_iff {c : Config} {n : Nat} (hn : n < 256) :
    legalLength c (BitVec.ofNat 8 n) = true ↔ 1 ≤ n ∧ n ≤ c.bufferSize := by
  rw [legalLength_iff, BitVec.toNat_ofNat, Nat.mod_eq_of_lt hn]

section
variable (c : Config) (a b : Operand)

theorem assemble_wreg : assemble c (.wreg a b) =
    (a.field c 8).bind fun reg => (b.field c 8).bind fun val => some (.st32 cmdOffset (encode (.wreg reg val))) := by
  rw [assemble, assembleWreg]
  cases a.field c 8 <;> cases b.field c 8 <;> rfl

theorem assemble_wblk : assemble c (.wblk a b) =
    (a.field c 8).bind fun reg => (b.field c 8).bind fun len =>
      if legalLength c len then some (.st32 cmdOffset (encode (.wblk reg len))) else none := by
  rw [assemble, assembleWblk]
  cases a.field c 8 with
  | none => rfl
  | some reg =>
    cases b.field c 8 with
    | none => rfl
    | some len => exact apply_ite writesCommand (legalLength c len = true) _ _

theorem assemble_st8 : assemble c (.st8 a b) =
    (a.field c 12).bind fun off => (b.field c 8).bind fun v => some (.st8 off v) := by
  rw [assemble]
  cases a.field c 12 <;> cases b.field c 8 <;> rfl

theorem assemble_st32 : assemble c (.st32 a b) =
    (a.field c 12).bind fun off => (b.field c 32).bind fun v => some (.st32 off v) := by
  rw [assemble]
  cases a.field c 12 <;> cases b.field c 32 <;> rfl

end

end Sys2Proof.Machine
end

section
/-! Proofs of the statements of spec 30 (encoding). -/

namespace Sys2Proof.Proofs

open Sys2Proof.Machine Sys2Proof.Claims

/-- Settles O6: decoding reads off the four fields the encoder put together, and only the block length can be refused then. -/
theorem decodeOfEncodeIsTheCommand : Obligations.DecodeOfEncodeIsTheCommand :=
  fun _ _ => ⟨decode_encode, decode_encode_of_not_wf⟩

/-- Settles O7, branch by branch of the decoder. -/
theorem encodeOfDecodeIsTheWord : Obligations.EncodeOfDecodeIsTheWord := fun _ _ _ => encode_of_decode

/-- Settles O8: a word decodes to a well-formed command exactly where it is that command's word, which its fields decide. -/
theorem decoderFollowsTheTable : Obligations.DecoderFollowsTheTable := by
  refine fun c w => ⟨fun reg val => ?wreg, fun reg len => ?wblk, ?map, ?draw, ?init, ?illegal⟩
  case wreg =>
    rw [decode_eq_ok_iff, encode, wordOfFields_eq_iff, eq_comm (a := reg), eq_comm (a := val)]
    exact and_iff_left rfl
  case wblk =>
    rw [decode_eq_ok_iff, encode, wordOfFields_eq_iff, Instr.wf, legalLength_iff]
    constructor
    · rintro ⟨⟨hopc, rfl, rfl, hval⟩, h1, hmax⟩
      exact ⟨hopc, hval, h1, hmax, rfl, rfl⟩
    · rintro ⟨hopc, hval, h1, hmax, rfl, rfl⟩
      exact ⟨⟨hopc, rfl, rfl, hval⟩, h1, hmax⟩
  case map => exact decode_eq_ok_iff_of_no_operands rfl rfl
  case draw => exact decode_eq_ok_iff_of_no_operands rfl rfl
  case init => exact decode_eq_ok_iff_of_no_operands rfl rfl
  case illegal => cases decode c w <;> simp

/-- Settles O9: the decoder's rejecting branches are the causes of R57, and raising ILLEGAL writes RESULT only. -/
theorem illegalWordsChangeResultOnly : Obligations.IllegalWordsChangeResultOnly := by
  refine fun s w => ⟨⟨fun ⟨e, he⟩ => illegalByR57_of_decode_error he, decode_error_of_illegalByR57⟩, fun hw => ?_⟩
  exact ⟨_, writeCmd_illegal hw, State.result_setResult s .illegal, onlyResultChanges_setResult s .illegal⟩

/-- Settles O38: each command by the transactions it comes to; before them MAP and DRAW's mapping issue none. -/
theorem eachCommandPutsItsBytesOnTheBus : Obligations.EachCommandPutsItsBytesOnTheBus := by
  refine fun s t => ⟨fun reg val h => ⟨_, transact_one_trace h⟩, fun reg len hlen h => ?wblk, fun h => ?map, fun h => ?draw,
    fun h => ?init, fun w hw h => ?illegal⟩
  case wblk =>
    rw [exec_wblk_of_legalLength hlen] at h
    obtain ⟨o, payload, htrace, hsize, hcell⟩ := blockWrite_next_trace h
    exact ⟨o, payload, htrace, hsize, fun i hi => (hcell i hi).1⟩
  case map =>
    obtain ⟨u, hloop, rfl⟩ := execMap_next h
    exact hloop.trace
  case draw =>
    obtain ⟨u, hloop, hsend⟩ := execDraw_next h
    obtain ⟨o, payload, htrace, hsize, hcell⟩ := blockWrite_next_trace hsend
    rw [hloop.cfg, hloop.trace] at htrace
    rw [hloop.cfg] at hsize hcell
    exact ⟨o, payload, htrace, hsize, fun i hi => (hcell i hi).2⟩
  case init =>
    have h : transact (initSequence s.cfg) s = .next t := h
    obtain ⟨-, -, -, -, -, -, -, recs, _, htrace, -, hsent, haddr, -⟩ := transact_next h
    exact ⟨recs, htrace, hsent, haddr⟩
  case illegal =>
    rw [writeCmd_illegal hw] at h
    cases h
    rfl

/-- Settles O56: each line assembles where its operands make fields, and then to the access with those fields. -/
theorem assemblerEmitsTheWordOrRefuses : Obligations.AssemblerEmitsTheWordOrRefuses := by
  refine fun c a b e => ⟨?wreg, ?wblk, ?st8, Operand.map_field_eq_some_iff, ?st32, Operand.map_field_eq_some_iff, rfl, rfl, rfl⟩
  case wreg =>
    rw [assemble_wreg]
    exact Operand.bind_fields_some_eq_some_iff
  case wblk =>
    rw [assemble_wblk, Operand.bind_fields_eq_some_iff, Option.ite_none_right_eq_some, Option.some.injEq, eq_comm (b := e)]
    constructor
    · rintro ⟨ha, hb, hlen, he⟩
      obtain ⟨h1, hmax⟩ := (legalLength_ofNat_iff hb).1 hlen
      exact ⟨ha, h1, hmax, hb, he⟩
    · rintro ⟨ha, h1, hmax, hb, he⟩
      exact ⟨ha, hb, (legalLength_ofNat_iff hb).2 ⟨h1, hmax⟩, he⟩
  case st8 =>
    rw [assemble_st8]
    exact Operand.bind_fields_some_eq_some_iff
  case st32 =>
    rw [assemble_st32]
    exact Operand.bind_fields_some_eq_some_iff

/-- Settles O55: the expansions are the definition's own, and the WREG `run` stands for assembles to its word. -/
theorem pseudoInstructionsExpandToWreg : Obligations.PseudoInstructionsExpandToWreg := by
  refine fun c p reg => ⟨rfl, rfl, rfl, ?_⟩
  have hreg : Operand.value c (.param .regShutdown) = 0x0a := rfl
  have hval : Operand.value c (.param .shutdownRun) = 0x01 := rfl
  obtain ⟨hwreg, -⟩ := assemblerEmitsTheWordOrRefuses c (.param .regShutdown) (.param .shutdownRun) (.st32 0x200 0x01000A01)
  rw [hreg, hval] at hwreg
  exact hwreg.2 (by decide)

end Sys2Proof.Proofs
end

section
/-! Facts about a command of one transaction, the page it leaves, block writes and the length of what is sent (spec 40): the layer the
statements of spec 40 are settled from. -/

namespace Sys2Proof.Machine

open Sys2Proof.Claims

/-! ## A command of one transaction (spec 40 R63) -/

theorem answered_nextOutcome (s : State) : Answered s s.nextOutcome := by
  unfold Answered State.nextOutcome
  cases s.busIn with
  | nil => simp
  | cons a rest => cases a <;> simp

theorem code_ofOutcome (out : BusOutcome) : (Result.ofOutcome out).code.extractLsb' 0 2 = resultOf out := by
  cases out <;> decide

/-- `t` is what a command leaves whose only transaction, from `s`, carries `bytes` and is answered with `out`. -/
structure SendsOne (s : State) (bytes : List Byte) (out : BusOutcome) (t : State) : Prop where
  answered : Answered s out
  trace : t.trace = s.trace ++ [⟨s.cfg.devAddr, bytes, out⟩]
  result : t.result = resultOf out
  lbuf : t.lbuf = s.lbuf
  pbuf : t.pbuf = s.pbuf
  oob : t.oob = s.oob
  host : HostSideKept s t
  busIn : t.busIn = s.busIn.tail
  byteDraws : t.byteDraws = s.byteDraws

theorem transact_one_completes {s : State} (bytes : List Byte) (h : BusAnswers s) : ∃ t, transact [bytes] s = .next t :=
  ⟨_, transact_next_iff.2 ⟨Bool.eq_false_of_not_eq_true (mt s.busStalls_one.1 h), rfl⟩⟩

theorem transact_one_sends {bytes : List Byte} {s t : State} (h : transact [bytes] s = .next t) : ∃ out, SendsOne s bytes out t := by
  obtain ⟨-, rfl⟩ := transact_next_iff.1 h
  rw [State.sendAll_one]
  exact ⟨s.nextOutcome, {
    answered := answered_nextOutcome s
    trace := rfl
    result := (State.result_setResult _ _).trans (code_ofOutcome _)
    lbuf := rfl
    pbuf := rfl
    oob := State.oob_setResult _ _
    host := ⟨rfl, rfl, rfl⟩
    busIn := rfl
    byteDraws := rfl }⟩

/-! ## The page one transaction leaves (spec 10 R29) -/

namespace SendsOne

variable {s t : State} {reg val : Byte} {payload : List Byte} {out : BusOutcome}

theorem page (h : SendsOne s (reg :: payload) out t) :
    t.page = if reg = s.cfg.regCmd then BusRecord.pageSet s.cfg ⟨s.cfg.devAddr, reg :: payload, out⟩ else s.page := by
  obtain ⟨hcfg, -, -⟩ := h.host
  rw [State.page, hcfg, h.trace, Proofs.ctlPage_snoc]
  simp [BusRecord.touchesPage, State.page]

theorem page_of_ne (h : SendsOne s (reg :: payload) out t) (hreg : reg ≠ s.cfg.regCmd) : t.page = s.page := by
  rw [h.page, if_neg hreg]

/-- A register write to REG_CMD selects the page, or leaves it UNKNOWN where it failed. -/
theorem page_of_select (h : SendsOne s [reg, val] out t) (hreg : reg = s.cfg.regCmd) :
    t.page = if out = .ok then some val else none := by
  rw [h.page, if_pos hreg]
  simp [BusRecord.pageSet, hreg]

/-- A longer block write to REG_CMD selects no page, whatever its outcome. -/
theorem page_of_long (h : SendsOne s (reg :: payload) out t) (hreg : reg = s.cfg.regCmd) (hlen : 2 ≤ payload.length) :
    t.page = none := by
  rw [h.page, if_pos hreg]
  match payload, hlen with
  | _ :: _ :: _, _ => rfl

end SendsOne

/-! ## Block writes (spec 40 R65) -/

/-- A block write sends its payload from the state in which PBUF[0] is the register already. -/
theorem blockWrite_completes {reg : Byte} {n : Nat} {s : State} {payload : List Byte}
    (hp : s.pbuf.readAll (payloadCells n) = .ok payload) (hbus : BusAnswers s) :
    ∃ t out, blockWrite reg n s = .next t ∧ SendsOne (s.writeCell .pbuf 0 reg) (reg :: payload) out t := by
  obtain ⟨t, ht⟩ := transact_one_completes (s := s.writeCell .pbuf 0 reg) (reg :: payload) hbus
  obtain ⟨out, hsend⟩ := transact_one_sends ht
  exact ⟨t, out, blockWrite_next_iff.2 ⟨payload, hp, ht⟩, hsend⟩

/-- The cells of a payload are read in ascending order, so its first unwritten cell ends the read. -/
theorem readAll_payload_error {m : Memory} {n i : Nat} (h1 : 1 ≤ i) (hn : i ≤ n) (hi : m.read i = none)
    (hbefore : ∀ k, 1 ≤ k → k < i → (m.read k).isSome) : m.readAll (payloadCells n) = .error i := by
  obtain ⟨j, rfl⟩ := Nat.exists_eq_add_of_le h1
  obtain ⟨d, rfl⟩ := Nat.exists_eq_add_of_le hn
  have hsplit : payloadCells (1 + j + d) = List.range' 1 j ++ (1 + j) :: List.range' (1 + j + 1) d := by
    rw [← List.range'_succ, List.range'_append_1, payloadCells]
    congr 1
    omega
  refine (Memory.readAll_error_iff m _ _).2 ⟨_, _, hsplit, hi, fun k hk => ?_⟩
  obtain ⟨hk1, hkj⟩ := List.mem_range'_1.1 hk
  exact Option.isSome_iff_ne_none.1 (hbefore k hk1 hkj)

/-! ## Block lengths out of range (spec 30 R57 (c), 40 R66) -/

theorem legalLength_eq_false_iff {c : Config} {len : Byte} : legalLength c len = false ↔ len.toNat = 0 ∨ c.bufferSize < len.toNat := by
  rw [← Bool.not_eq_true, legalLength_iff]
  omega

theorem exec_wblk_of_not_legalLength {reg len : Byte} {s : State} (h : legalLength s.cfg len = false) :
    exec (.wblk reg len) s = raiseIllegal s := if_neg (by simp [h])

/-- Every record is one from before the command, or as long as the bytes the command sends (spec 30 R62) may be. -/
theorem exec_next_record_length {i : Instr} {s t : State} (hv : s.cfg.valid = true) (h : exec i s = .next t) :
    ∀ r ∈ t.trace, r ∈ s.trace ∨ r.bytes.length ≤ s.cfg.bufferSize + 1 := by
  suffices hnew : ∃ recs, t.trace = s.trace ++ recs ∧ ∀ r ∈ recs, r.bytes.length ≤ s.cfg.bufferSize + 1 by
    obtain ⟨recs, htrace, hlen⟩ := hnew
    intro r hr
    rw [htrace] at hr
    exact (List.mem_append.1 hr).imp_right (hlen r)
  obtain ⟨hwreg, hwblk, hmap, hdraw, hinit, -⟩ := Proofs.eachCommandPutsItsBytesOnTheBus s t
  cases i with
  | wreg reg val =>
    obtain ⟨o, htrace⟩ := hwreg reg val h
    exact ⟨_, htrace, by simpa using (maySend_pair hv reg val).2⟩
  | wblk reg len =>
    cases hlegal : legalLength s.cfg len with
    | true =>
      obtain ⟨o, bs, htrace, hlen, -⟩ := hwblk reg len hlegal h
      exact ⟨_, htrace, by simpa [hlen] using (legalLength_iff.1 hlegal).2⟩
    | false =>
      rw [exec_wblk_of_not_legalLength hlegal] at h
      cases h
      exact ⟨[], by simp, by simp⟩
  | map => exact ⟨[], by simpa using hmap h, by simp⟩
  | draw =>
    obtain ⟨o, bs, htrace, hlen, -⟩ := hdraw h
    exact ⟨_, htrace, by simp [hlen]⟩
  | init =>
    obtain ⟨recs, htrace, hsent, -⟩ := hinit h
    exact ⟨recs, htrace, fun r hr => (maySend_initSequence hv _ (hsent.subset (List.mem_map_of_mem hr))).2⟩

end Sys2Proof.Machine
end

section
/-! Proofs of the statements of spec 40 (register transport). -/

namespace Sys2Proof.Proofs

open Sys2Proof.Machine Sys2Proof.Claims

/-- Settles O15: a LEN that is not 0 is cause (b) of R57, and WREG is one transaction. -/
theorem wregSendsRegisterAndValue : Obligations.WregSendsRegisterAndValue := by
  refine fun reg val s => ⟨rfl, fun len hlen => ?illegal, fun hbus => ?sends⟩
  case illegal =>
    have hillegal : IllegalByR57 s.cfg (wordOfFields 0x01 len reg val) := illegalByR57_iff.2 (.inr (.inl (by simpa using hlen)))
    exact decode_error_of_illegalByR57 hillegal
  case sends =>
    obtain ⟨t, ht⟩ := transact_one_completes [reg, val] hbus
    obtain ⟨out, h⟩ := transact_one_sends ht
    exact ⟨t, out, ht, h.answered, h.trace, h.result, h.page_of_select, h.page_of_ne, h.lbuf, h.pbuf, h.oob, h.host, h.busIn,
      h.byteDraws⟩

/-- Settles O16: VAL and the length are causes (b) and (c) of R57; a legal WBLK is a block write. -/
theorem wblkSendsThePayload : Obligations.WblkSendsThePayload := by
  refine fun reg len s => ⟨rfl, fun val hval => ?mustBeZero, fun hlen => ?blockLength, fun i hmax h1 hi hnone hbefore => ?unwritten,
    fun payload h1 hmax hsize hcell hbus => ?sends⟩
  case mustBeZero =>
    have hillegal : IllegalByR57 s.cfg (wordOfFields 0x02 len reg val) := illegalByR57_iff.2 (.inr (.inr (.inl (by simpa using hval))))
    exact ⟨decode_error_of_illegalByR57 hillegal, (illegalWordsChangeResultOnly s _).2 hillegal⟩
  case blockLength =>
    have hdecode := decode_encode_of_not_wf (i := .wblk reg len) (legalLength_eq_false_iff.2 hlen)
    exact (illegalWordsChangeResultOnly s _).2 (illegalByR57_of_decode_error hdecode)
  case unwritten =>
    rw [exec_wblk_of_legalLength (legalLength_iff.2 ⟨h1.trans hi, hmax⟩)]
    exact blockWrite_unwritten (readAll_payload_error h1 hi hnone hbefore)
  case sends =>
    rw [exec_wblk_of_legalLength (legalLength_iff.2 ⟨h1, hmax⟩)]
    obtain ⟨t, out, ht, h⟩ := blockWrite_completes (reg := reg) ((readAll_payload_iff _ _ _).2 ⟨hsize, hcell⟩) hbus
    have hpbuf : t.pbuf = s.pbuf.write 0 reg := h.pbuf
    refine ⟨t, out, ht, h.answered, h.trace, h.result, ?_, fun i hi => ?_, h.page_of_ne, fun hreg h2 => h.page_of_long hreg (hsize ▸ h2),
      h.lbuf, h.oob, h.host, h.busIn, h.byteDraws⟩
    · rw [hpbuf, Memory.read_write_same]
    · rw [hpbuf, Memory.read_write_other _ _ hi]

/-- Settles O17: the decoder tests the length, exec tests it again, and no byte list a command sends is longer than a frame. -/
theorem payloadBoundIsEnforcedAtDecode : Obligations.PayloadBoundIsEnforcedAtDecode := by
  refine ⟨fun reg len s hlen => ?_, fun i s t => exec_next_record_length⟩
  have hlegal : legalLength s.cfg len = false := legalLength_eq_false_iff.2 hlen
  exact ⟨decode_encode_of_not_wf hlegal, _, exec_wblk_of_not_legalLength hlegal, State.result_setResult s .illegal,
    onlyResultChanges_setResult s .illegal⟩

/-- Settles O18: WREG sends from the state itself, WBLK from the state with PBUF[0] set. -/
theorem transportCommandsShareTheirBehaviour : Obligations.TransportCommandsShareTheirBehaviour := by
  rintro i s t (⟨reg, val, rfl⟩ | ⟨reg, len, rfl⟩) hwf ht
  · obtain ⟨out, h⟩ := transact_one_sends (show transact [[reg, val]] s = .next t from ht)
    obtain ⟨hcfg, -, -⟩ := h.host
    exact ⟨⟨_, h.trace, rfl, h.result, h.answered⟩, h.lbuf, h.oob, hcfg, h.busIn⟩
  · rw [exec_wblk_of_legalLength hwf] at ht
    obtain ⟨payload, -, hsend⟩ := blockWrite_next_iff.1 ht
    obtain ⟨out, h⟩ := transact_one_sends hsend
    obtain ⟨hcfg, -, -⟩ := h.host
    exact ⟨⟨_, h.trace, rfl, h.result, h.answered⟩, h.lbuf, h.oob, hcfg, h.busIn⟩

end Sys2Proof.Proofs
end

section
/-! Facts about the slot function and MAP (spec 41): the layer the statements of spec 41 are settled from. -/

namespace Sys2Proof.Machine

open Sys2Proof.Proofs Sys2Proof.Claims

/-! ## fast and slow by the parity of col (spec 41 R72, R73) -/

section

variable {c : Config} {j : Nat}

theorem slotRow_le (j : Nat) : slotRow j ≤ 7 := Nat.le_of_lt_succ (Nat.mod_lt j (by decide))

theorem slotCol_le (h : j < c.bufferSize) : slotCol j ≤ (c.bufferSize - 1) / 8 :=
  Nat.div_le_div_right (Nat.le_sub_one_of_lt h)

theorem slotFast_of_odd (h : slotCol j % 2 = 1) : slotFast c j = (c.width : Int) / 2 - (slotCol j : Int) / 2 - 1 := by
  simp [slotFast, h]

theorem slotFast_of_even (h : slotCol j % 2 = 0) : slotFast c j = (c.width : Int) / 2 + (slotCol j : Int) / 2 := by
  simp [slotFast, h]

theorem slotSlow_of_odd (h : slotCol j % 2 = 1) : slotSlow c j = (c.height : Int) - (slotRow j : Int) - 1 := by
  simp [slotSlow, h]

theorem slotSlow_of_even (h : slotCol j % 2 = 0) : slotSlow c j = (slotRow j : Int) := by
  simp [slotSlow, h]

/-- Only the odd branch subtracts (spec 41 R73). -/
theorem slotFast_neg_iff : slotFast c j < 0 ↔ slotCol j % 2 = 1 ∧ c.width / 2 ≤ slotCol j / 2 := by
  obtain heven | hodd := Nat.mod_two_eq_zero_or_one (slotCol j)
  · rw [slotFast_of_even heven]
    omega
  · rw [slotFast_of_odd hodd]
    omega

theorem slotSlow_neg_iff : slotSlow c j < 0 ↔ slotCol j % 2 = 1 ∧ c.height ≤ slotRow j := by
  obtain heven | hodd := Nat.mod_two_eq_zero_or_one (slotCol j)
  · rw [slotSlow_of_even heven]
    omega
  · rw [slotSlow_of_odd hodd]
    omega

/-- Slot `16k + r` is row `r` of an even col, slot `16k + 8 + r` row `r` of an odd one. -/
theorem slotFast_even_col (c : Config) (k : Nat) {r : Nat} (hr : r < 8) : slotFast c (16 * k + r) = (c.width : Int) / 2 + k := by
  have hcol : slotCol (16 * k + r) = 2 * k := by unfold slotCol rowsPerCol; omega
  rw [slotFast_of_even (by omega), hcol]
  omega

theorem slotSlow_even_col (c : Config) (k : Nat) {r : Nat} (hr : r < 8) : slotSlow c (16 * k + r) = r := by
  have hcol : slotCol (16 * k + r) = 2 * k := by unfold slotCol rowsPerCol; omega
  have hrow : slotRow (16 * k + r) = r := by unfold slotRow rowsPerCol; omega
  rw [slotSlow_of_even (by omega), hrow]

theorem slotFast_odd_col (c : Config) (k : Nat) {r : Nat} (hr : r < 8) : slotFast c (16 * k + 8 + r) = (c.width : Int) / 2 - k - 1 := by
  have hcol : slotCol (16 * k + 8 + r) = 2 * k + 1 := by unfold slotCol rowsPerCol; omega
  rw [slotFast_of_odd (by omega), hcol]
  omega

theorem slotSlow_odd_col (c : Config) (k : Nat) {r : Nat} (hr : r < 8) : slotSlow c (16 * k + 8 + r) = (c.height : Int) - r - 1 := by
  have hcol : slotCol (16 * k + 8 + r) = 2 * k + 1 := by unfold slotCol rowsPerCol; omega
  have hrow : slotRow (16 * k + 8 + r) = r := by unfold slotRow rowsPerCol; omega
  rw [slotSlow_of_odd (by omega), hrow]

theorem height_le_of_valid (hv : c.valid = true) : c.height ≤ 256 := by
  obtain ⟨hwidth, -, harea, -⟩ := (config_valid_iff c).1 hv
  exact (Nat.le_mul_of_pos_left _ hwidth).trans harea

/-- The bounds of spec 00 R15 leave at most 32 cols, so `fast` goes no further below zero than this. -/
theorem slotFast_bounds (hv : c.valid = true) (hj : j < c.bufferSize) : -16 ≤ slotFast c j ∧ slotFast c j < 2 ^ 32 := by
  obtain ⟨-, -, -, -, hsize, hwidth⟩ := (config_valid_iff c).1 hv
  have hcol : slotCol j ≤ (c.bufferSize - 1) / 8 := slotCol_le hj
  obtain heven | hodd := Nat.mod_two_eq_zero_or_one (slotCol j)
  · rw [slotFast_of_even heven]
    omega
  · rw [slotFast_of_odd hodd]
    omega

theorem slotSlow_bounds (hv : c.valid = true) : -16 ≤ slotSlow c j ∧ slotSlow c j < 2 ^ 32 := by
  have hheight : c.height ≤ 256 := height_le_of_valid hv
  have hrow : slotRow j ≤ 7 := slotRow_le j
  obtain heven | hodd := Nat.mod_two_eq_zero_or_one (slotCol j)
  · rw [slotSlow_of_even heven]
    omega
  · rw [slotSlow_of_odd hodd]
    omega

end

/-! ## What the guard sees (spec 41 R74) -/

theorem view_of_nonneg (a : MapArith) {x : Int} (h0 : 0 ≤ x) (h32 : x < 2 ^ 32) : view a x = x := by
  cases a with
  | unsigned => exact Int.emod_eq_of_lt h0 h32
  | signed => rfl

theorem view_unsigned_of_neg {x : Int} (hx : -16 ≤ x) (h0 : x < 0) : view .unsigned x = 2 ^ 32 + x := by
  simp only [view]
  omega

/-- The guard never sees less than the value itself. -/
theorem le_view (a : MapArith) {x : Int} (h32 : x < 2 ^ 32) : x ≤ view a x := by
  cases a with
  | unsigned => simp only [view]; omega
  | signed => exact le_rfl

/-- Of a nonnegative value it never sees more. -/
theorem view_le (a : MapArith) {x : Int} (h0 : 0 ≤ x) : view a x ≤ x := by
  cases a with
  | unsigned => simp only [view]; omega
  | signed => exact le_rfl

/-! ## The guard (spec 41 R75) -/

section

variable {c : Config} {f v : Int}

theorem guardSkips_gt_iff (hg : c.guard = .gt) : guardSkips c f v = true ↔ v > (c.height : Int) ∨ f > (c.width : Int) := by
  simp [guardSkips, hg]

theorem guardSkips_ge_iff (hg : c.guard = .ge) : guardSkips c f v = true ↔ v ≥ (c.height : Int) ∨ f ≥ (c.width : Int) := by
  simp [guardSkips, hg]

/-- Either guard skips what lies beyond a bound. -/
theorem guardSkips_of_beyond (h : v > (c.height : Int) ∨ f > (c.width : Int)) : guardSkips c f v = true := by
  cases hg : c.guard with
  | gt => exact (guardSkips_gt_iff hg).2 h
  | ge => exact (guardSkips_ge_iff hg).2 (h.imp le_of_lt le_of_lt)

/-- Neither guard skips what lies within both. -/
theorem guardSkips_of_within (hv : v < (c.height : Int)) (hf : f < (c.width : Int)) : guardSkips c f v = false := by
  rw [Bool.eq_false_iff, ne_eq]
  cases hg : c.guard with
  | gt => rw [guardSkips_gt_iff hg]; omega
  | ge => rw [guardSkips_ge_iff hg]; omega

/-- A negative value passes its own comparison, so the other one decides (spec 41 R74). -/
theorem guardSkips_of_neg_fast (hf : f < 0) :
    guardSkips c f v = true ↔ if c.guard = .gt then v > (c.height : Int) else v ≥ (c.height : Int) := by
  cases hg : c.guard with
  | gt => rw [guardSkips_gt_iff hg, if_pos rfl]; omega
  | ge => rw [guardSkips_ge_iff hg, if_neg (by decide)]; omega

theorem guardSkips_of_neg_slow (hv : v < 0) :
    guardSkips c f v = true ↔ if c.guard = .gt then f > (c.width : Int) else f ≥ (c.width : Int) := by
  cases hg : c.guard with
  | gt => rw [guardSkips_gt_iff hg, if_pos rfl]; omega
  | ge => rw [guardSkips_ge_iff hg, if_neg (by decide)]; omega

end

/-! ## The verdict on a slot (spec 41 R70, R76) -/

/-- The source index lies in LBUF. -/
def InRange (c : Config) (idx : Int) : Prop := 0 ≤ idx ∧ idx < ((c.width * c.height : Nat) : Int)

section

variable {c : Config} {j : Nat}

theorem slot_eq_skip_iff :
    slot c j = .skip ↔ guardSkips c (view c.arith (slotFast c j)) (view c.arith (slotSlow c j)) = true := by
  unfold slot
  cases guardSkips c (view c.arith (slotFast c j)) (view c.arith (slotSlow c j)) with
  | true => simp
  | false =>
    simp only [Bool.false_eq_true, if_false, iff_false]
    split_ifs <;> simp

theorem slot_of_not_skip (h : slot c j ≠ .skip) :
    (InRange c (slotIdx c j) → slot c j = .read (slotIdx c j).toNat) ∧ (¬ InRange c (slotIdx c j) → slot c j = .oob (slotIdx c j)) := by
  rw [ne_eq, slot_eq_skip_iff] at h
  unfold slot
  rw [if_neg h]
  exact ⟨fun hin => if_pos hin, fun hout => if_neg hout⟩

theorem slot_eq_read_iff {i : Nat} : slot c j = .read i ↔ slot c j ≠ .skip ∧ i < c.width * c.height ∧ (i : Int) = slotIdx c j := by
  by_cases hskip : slot c j = .skip
  · simp [hskip]
  · obtain ⟨hread, hoob⟩ := slot_of_not_skip hskip
    by_cases hin : InRange c (slotIdx c j)
    · rw [hread hin]
      unfold InRange at hin
      simp only [Slot.read.injEq, ne_eq, reduceCtorEq, not_false_eq_true, true_and]
      omega
    · rw [hoob hin]
      unfold InRange at hin
      simp only [reduceCtorEq, false_iff, not_and]
      omega

theorem slot_eq_oob_iff {x : Int} : slot c j = .oob x ↔ slot c j ≠ .skip ∧ ¬ InRange c x ∧ x = slotIdx c j := by
  by_cases hskip : slot c j = .skip
  · simp [hskip]
  · obtain ⟨hread, hoob⟩ := slot_of_not_skip hskip
    by_cases hin : InRange c (slotIdx c j)
    · rw [hread hin]
      simp only [reduceCtorEq, false_iff, not_and]
      rintro - hx rfl
      exact hx hin
    · rw [hoob hin]
      simp only [Slot.oob.injEq, ne_eq, reduceCtorEq, not_false_eq_true, true_and]
      exact ⟨fun h => ⟨h ▸ hin, h.symm⟩, fun h => h.2.symm⟩

/-- The source index of nonnegative intermediates is nonnegative. -/
theorem slotIdx_nonneg (hf : 0 ≤ slotFast c j) (hs : 0 ≤ slotSlow c j) : 0 ≤ slotIdx c j :=
  add_nonneg hf (mul_nonneg hs (Int.natCast_nonneg _))

theorem slotIdx_le (hf : slotFast c j ≤ (c.width : Int)) (hs : slotSlow c j ≤ (c.height : Int)) :
    slotIdx c j ≤ (c.width : Int) + (c.height : Int) * (c.width : Int) :=
  add_le_add hf (mul_le_mul_of_nonneg_right hs (Int.natCast_nonneg _))

/-- Below both bounds the source index is below the size of LBUF, whatever its sign. -/
theorem slotIdx_lt (hf : slotFast c j < (c.width : Int)) (hs : slotSlow c j < (c.height : Int)) :
    slotIdx c j < ((c.width * c.height : Nat) : Int) := by
  have hrows : (slotSlow c j + 1) * (c.width : Int) ≤ (c.height : Int) * (c.width : Int) :=
    mul_le_mul_of_nonneg_right hs (Int.natCast_nonneg _)
  unfold slotIdx
  push_cast
  linarith

/-- `fast` and `slow` within their ranges name the pixel `(fast, slow)` (spec 41 R76). -/
theorem slotIdx_of_within (hf0 : 0 ≤ slotFast c j) (hf : slotFast c j < (c.width : Int)) (hs0 : 0 ≤ slotSlow c j)
    (hs : slotSlow c j < (c.height : Int)) :
    InRange c (slotIdx c j) ∧ slotIdx c j % (c.width : Int) = slotFast c j ∧ slotIdx c j / (c.width : Int) = slotSlow c j := by
  refine ⟨⟨slotIdx_nonneg hf0 hs0, slotIdx_lt hf hs⟩, ?_, ?_⟩
  · rw [slotIdx, Int.add_mul_emod_self_right, Int.emod_eq_of_lt hf0 hf]
  · rw [slotIdx, Int.add_mul_ediv_right _ _ (by omega), Int.ediv_eq_zero_of_lt hf0 hf, zero_add]

/-- A slot whose pixel exists reads it, under either guard and either setting of MAP_ARITH. -/
theorem slot_of_within (hf0 : 0 ≤ slotFast c j) (hf : slotFast c j < (c.width : Int)) (hs0 : 0 ≤ slotSlow c j)
    (hs : slotSlow c j < (c.height : Int)) {i : Nat} (hi : (i : Int) = slotIdx c j) : slot c j = .read i := by
  have hpass := guardSkips_of_within (c := c) ((view_le c.arith hs0).trans_lt hs) ((view_le c.arith hf0).trans_lt hf)
  have hskip : slot c j ≠ .skip := fun h => by simp [slot_eq_skip_iff.1 h] at hpass
  have hlt := slotIdx_lt hf hs
  exact slot_eq_read_iff.2 ⟨hskip, by omega, hi⟩

/-- Under SIGNED a negative value passes the guard (spec 41 R74). -/
theorem not_skip_of_signed (ha : c.arith = .signed) (hf : slotFast c j < (c.width : Int)) (hs : slotSlow c j < (c.height : Int)) :
    slot c j ≠ .skip := by
  rw [ne_eq, slot_eq_skip_iff, ha]
  simp [view, guardSkips_of_within hs hf]

/-- In a legal configuration the guard lets nothing beyond a bound through. -/
theorem bounds_of_not_skip (hv : c.valid = true) (hj : j < c.bufferSize) (h : slot c j ≠ .skip) :
    slotFast c j ≤ (c.width : Int) ∧ slotSlow c j ≤ (c.height : Int) := by
  have hf := le_view c.arith (slotFast_bounds hv hj).2
  have hs := le_view c.arith (slotSlow_bounds (j := j) hv).2
  have hpass : ¬ (view c.arith (slotSlow c j) > (c.height : Int) ∨ view c.arith (slotFast c j) > (c.width : Int)) :=
    fun hb => h (slot_eq_skip_iff.2 (guardSkips_of_beyond hb))
  omega

/-- The corrected guard lets nothing at a bound through either. -/
theorem strict_bounds_of_not_skip (hv : c.valid = true) (hg : c.guard = .ge) (hj : j < c.bufferSize) (h : slot c j ≠ .skip) :
    slotFast c j < (c.width : Int) ∧ slotSlow c j < (c.height : Int) := by
  have hf := le_view c.arith (slotFast_bounds hv hj).2
  have hs := le_view c.arith (slotSlow_bounds (j := j) hv).2
  rw [ne_eq, slot_eq_skip_iff, guardSkips_ge_iff hg] at h
  omega

/-- A negative intermediate wraps beyond every bound of a legal configuration (spec 41 R74). -/
theorem slot_skip_of_negative (hv : c.valid = true) (hj : j < c.bufferSize) (ha : c.arith = .unsigned)
    (hneg : slotFast c j < 0 ∨ slotSlow c j < 0) : slot c j = .skip := by
  obtain ⟨-, -, -, -, hsize, hwidth⟩ := (config_valid_iff c).1 hv
  have hheight : c.height ≤ 256 := height_le_of_valid hv
  rw [slot_eq_skip_iff, ha]
  apply guardSkips_of_beyond
  obtain hf | hs := hneg
  · have hlow := (slotFast_bounds hv hj).1
    rw [view_unsigned_of_neg hlow hf]
    omega
  · have hlow := (slotSlow_bounds (j := j) hv).1
    rw [view_unsigned_of_neg hlow hs]
    omega

theorem nonneg_of_not_skip (hv : c.valid = true) (hj : j < c.bufferSize) (ha : c.arith = .unsigned) (h : slot c j ≠ .skip) :
    0 ≤ slotFast c j ∧ 0 ≤ slotSlow c j := by
  by_contra hneg
  exact h (slot_skip_of_negative hv hj ha (by omega))

/-- Nonnegative intermediates look the same under both settings of MAP_ARITH. -/
theorem slot_arith_irrelevant (hv : c.valid = true) (hj : j < c.bufferSize) (hf : 0 ≤ slotFast c j) (hs : 0 ≤ slotSlow c j)
    (a : MapArith) : slot c j = slot { c with arith := a } j := by
  have hviewf : ∀ b, view b (slotFast c j) = slotFast c j := fun b => view_of_nonneg b hf (slotFast_bounds hv hj).2
  have hviews : ∀ b, view b (slotSlow c j) = slotSlow c j := fun b => view_of_nonneg b hs (slotSlow_bounds hv).2
  show (if guardSkips c (view c.arith (slotFast c j)) (view c.arith (slotSlow c j)) = true then Slot.skip else _) =
    if guardSkips c (view a (slotFast c j)) (view a (slotSlow c j)) = true then Slot.skip else _
  simp only [hviewf, hviews]
  rfl

/-- How an index leaves LBUF in a legal configuration (spec 41 R76). -/
theorem oob_cases (hv : c.valid = true) (hj : j < c.bufferSize) {idx : Int} (h : slot c j = .oob idx) :
    (idx < 0 ∧ c.arith = .signed) ∨
    (((c.width * c.height : Nat) : Int) ≤ idx ∧ (slotSlow c j = (c.height : Int) ∨ slotFast c j = (c.width : Int))) := by
  obtain ⟨hskip, hout, rfl⟩ := slot_eq_oob_iff.1 h
  obtain ⟨hf, hs⟩ := bounds_of_not_skip hv hj hskip
  by_cases hneg : slotIdx c j < 0
  · refine .inl ⟨hneg, ?_⟩
    cases ha : c.arith with
    | signed => rfl
    | unsigned =>
      obtain ⟨hf0, hs0⟩ := nonneg_of_not_skip hv hj ha hskip
      exact absurd hneg (slotIdx_nonneg hf0 hs0).not_gt
  · have hhigh : ((c.width * c.height : Nat) : Int) ≤ slotIdx c j := not_lt.1 fun hlt => hout ⟨not_lt.1 hneg, hlt⟩
    refine .inr ⟨hhigh, ?_⟩
    by_contra hbelow
    exact hhigh.not_gt (slotIdx_lt (by omega) (by omega))

/-- The corrected guard with unsigned intermediates leaves no out-of-range slot (spec 41 R81). -/
theorem not_isOob_of_ge_unsigned (hv : c.valid = true) (hg : c.guard = .ge) (ha : c.arith = .unsigned) (hj : j < c.bufferSize) :
    (slot c j).isOob = false := by
  cases hs : slot c j with
  | skip => rfl
  | read idx => rfl
  | oob idx =>
    have hskip : slot c j ≠ .skip := by simp [hs]
    obtain ⟨hf, hslow⟩ := strict_bounds_of_not_skip hv hg hj hskip
    obtain ⟨-, hsigned⟩ | ⟨-, hat⟩ := oob_cases hv hj hs
    · rw [ha] at hsigned
      cases hsigned
    · omega

end

/-! ## The reference table (spec 41 R82) -/

theorem valid_of_referenceSizes {c : Config} (h : ReferenceSizes c) : c.valid = true := by
  obtain ⟨hw, hh, hb⟩ := h
  rw [config_valid_iff, hw, hh, hb]
  decide

/-- Every slot lies in an even col or in an odd one. -/
theorem slot_coordinates (j : Nat) : ∃ k r, r < 8 ∧ (j = 16 * k + r ∨ j = 16 * k + 8 + r) :=
  ⟨j / 16, j % 8, by omega, by omega⟩

section

variable {c : Config} (h : ReferenceSizes c)

include h

theorem reference_even_col (k : Nat) {r : Nat} (hr : r < 8) : slotFast c (16 * k + r) = 8 + k ∧ slotSlow c (16 * k + r) = r := by
  obtain ⟨hw, -, -⟩ := h
  rw [slotFast_even_col c k hr, slotSlow_even_col c k hr, hw]
  exact ⟨rfl, rfl⟩

theorem reference_odd_col (k : Nat) {r : Nat} (hr : r < 8) :
    slotFast c (16 * k + 8 + r) = 7 - k ∧ slotSlow c (16 * k + 8 + r) = 6 - r := by
  obtain ⟨hw, hh, -⟩ := h
  rw [slotFast_odd_col c k hr, slotSlow_odd_col c k hr, hw, hh]
  omega

theorem reference_slotIdx (j : Nat) : slotIdx c j = slotFast c j + slotSlow c j * 17 := by
  obtain ⟨hw, -, -⟩ := h
  rw [slotIdx, hw]
  rfl

/-- The middle column and the pixels right of it are those of the even cols. -/
theorem reference_read_even {k r : Nat} (hk : k ≤ 8) (hr : r ≤ 6) : slot c (16 * k + r) = .read (8 + k + r * 17) := by
  obtain ⟨hf, hs⟩ := reference_even_col h k (r := r) (by omega)
  have hidx := reference_slotIdx h (16 * k + r)
  obtain ⟨hw, hh, -⟩ := h
  exact slot_of_within (by omega) (by omega) (by omega) (by omega) (by omega)

/-- The pixels left of the middle column are those of the odd cols, bottom row first. -/
theorem reference_read_odd {k r : Nat} (hk : k ≤ 7) (hr : r ≤ 6) : slot c (16 * k + 8 + r) = .read (7 - k + (6 - r) * 17) := by
  obtain ⟨hf, hs⟩ := reference_odd_col h k (r := r) (by omega)
  have hidx := reference_slotIdx h (16 * k + 8 + r)
  obtain ⟨hw, hh, -⟩ := h
  exact slot_of_within (by omega) (by omega) (by omega) (by omega) (by omega)

/-- Row 7 of an even col has `slow = HEIGHT`: the source's guard lets it through, the corrected one does not (spec 41 R75). -/
theorem reference_boundary_gt (hg : c.guard = .gt) {k : Nat} (hk : k ≤ 8) : slot c (16 * k + 7) = .oob (127 + k) := by
  obtain ⟨hf, hs⟩ := reference_even_col h k (r := 7) (by omega)
  have hidx := reference_slotIdx h (16 * k + 7)
  obtain ⟨hw, hh, -⟩ := h
  refine slot_eq_oob_iff.2 ⟨?_, ?_, by omega⟩
  · rw [ne_eq, slot_eq_skip_iff, guardSkips_gt_iff hg, view_of_nonneg _ (by omega) (by omega), view_of_nonneg _ (by omega) (by omega)]
    omega
  · rw [InRange, hw, hh]
    omega

theorem reference_boundary_ge (hg : c.guard = .ge) {k : Nat} (hk : k ≤ 8) : slot c (16 * k + 7) = .skip := by
  obtain ⟨hf, hs⟩ := reference_even_col h k (r := 7) (by omega)
  obtain ⟨hw, hh, -⟩ := h
  rw [slot_eq_skip_iff, guardSkips_ge_iff hg, view_of_nonneg _ (by omega) (by omega), view_of_nonneg _ (by omega) (by omega)]
  omega

/-- Row 7 of an odd col has `slow = -1`, and col 17 has `fast = -1`: under UNSIGNED they are skipped. -/
theorem reference_skip_unsigned (ha : c.arith = .unsigned) {k r : Nat} (hk : k ≤ 8) (hr : r < 8) (hneg : r = 7 ∨ k = 8) :
    slot c (16 * k + 8 + r) = .skip := by
  obtain ⟨hf, hs⟩ := reference_odd_col h k hr
  have hvalid := valid_of_referenceSizes h
  obtain ⟨-, -, hb⟩ := h
  have hj : 16 * k + 8 + r < c.bufferSize := by omega
  exact slot_skip_of_negative hvalid hj ha (by omega)

/-- Under SIGNED they are not skipped, so the verdict is by the source index alone. -/
theorem reference_oob_signed (ha : c.arith = .signed) {k r : Nat} (hr : r < 8) {idx : Int} (hidx : idx = 7 - k + (6 - r) * 17)
    (hneg : idx < 0) : slot c (16 * k + 8 + r) = .oob idx := by
  obtain ⟨hf, hs⟩ := reference_odd_col h k hr
  have hidx' := reference_slotIdx h (16 * k + 8 + r)
  obtain ⟨hw, hh, -⟩ := h
  refine slot_eq_oob_iff.2 ⟨not_skip_of_signed ha (by omega) (by omega), ?_, by omega⟩
  rw [InRange]
  omega

/-- In col 17 the index -1 + slow*WIDTH names the last pixel of the row above (spec 41 R76). -/
theorem reference_last_col_signed (ha : c.arith = .signed) {r : Nat} (hr : r ≤ 5) : slot c (16 * 8 + 8 + r) = .read (101 - 17 * r) := by
  obtain ⟨hf, hs⟩ := reference_odd_col h 8 (r := r) (by omega)
  have hidx := reference_slotIdx h (16 * 8 + 8 + r)
  obtain ⟨hw, hh, -⟩ := h
  refine slot_eq_read_iff.2 ⟨not_skip_of_signed ha (by omega) (by omega), ?_, by omega⟩
  rw [hw, hh]
  omega

/-- Under UNSIGNED a slot that reads pixel `(x, y)` has `fast = x` and `slow = y`, which names the slot (spec 41 R82). -/
theorem reference_pixel_slot (ha : c.arith = .unsigned) {x y j : Nat} (hx : x < 17) (hy : y < 7) (hj : j < 144) :
    slot c j = .read (x + y * 17) ↔ j = if 8 ≤ x then 16 * (x - 8) + y else 126 - 16 * x - y := by
  constructor
  · intro hread
    obtain ⟨hskip, -, hidx⟩ := slot_eq_read_iff.1 hread
    have hjb : j < c.bufferSize := by
      obtain ⟨-, -, hb⟩ := h
      omega
    obtain ⟨hf0, hs0⟩ := nonneg_of_not_skip (valid_of_referenceSizes h) hjb ha hskip
    rw [reference_slotIdx h] at hidx
    obtain ⟨k, r, hr, rfl | rfl⟩ := slot_coordinates j
    · obtain ⟨hf, hs⟩ := reference_even_col h k hr
      have hk : k ≤ 8 := by omega
      have hrow : y = r := by omega
      rw [if_pos (by omega)]
      omega
    · obtain ⟨hf, hs⟩ := reference_odd_col h k hr
      have hk : k ≤ 7 := by omega
      have hrow : y = 6 - r := by omega
      rw [if_neg (by omega)]
      omega
  · rintro rfl
    split
    · have hread := reference_read_even h (k := x - 8) (r := y) (by omega) (by omega)
      rwa [show 8 + (x - 8) + y * 17 = x + y * 17 by omega] at hread
    · have hread := reference_read_odd h (k := 7 - x) (r := 6 - y) (by omega) (by omega)
      rwa [show 16 * (7 - x) + 8 + (6 - y) = 126 - 16 * x - y by omega,
        show 7 - (7 - x) + (6 - (6 - y)) * 17 = x + y * 17 by omega] at hread

end

/-- The four settings of the switches at the reference sizes. -/
def referenceWith (g : Guard) (a : MapArith) : Config := { Config.reference with guard := g, arith := a }

/-- The slot function reads WIDTH, HEIGHT and the two switches only. -/
theorem slot_congr {c d : Config} (hw : c.width = d.width) (hh : c.height = d.height) (hg : c.guard = d.guard) (ha : c.arith = d.arith) :
    slot c = slot d := by
  cases c
  cases d
  dsimp only at hw hh hg ha
  subst hw hh hg ha
  rfl

/-- How many slots of a frame read, how many are skipped and how many read outside LBUF. -/
def slotTotals (v : Nat → Slot) : Nat × Nat × Nat :=
  ((List.range 144).countP (fun j => v j ≠ .skip ∧ (v j).isOob = false), (List.range 144).countP (fun j => v j = .skip),
    (List.range 144).countP (fun j => (v j).isOob))

/-- The last rows of R82's table: READ, SKIP and OOB slots in each setting. -/
def tableTotals : MapArith → Guard → Nat × Nat × Nat
  | .unsigned, .gt => (119, 16, 9)
  | .unsigned, .ge => (119, 25, 0)
  | .signed, .gt => (125, 0, 19)
  | .signed, .ge => (125, 9, 10)

theorem slotTotals_referenceWith (g : Guard) (a : MapArith) : slotTotals (slot (referenceWith g a)) = tableTotals a g := by
  cases g with
  | gt => cases a <;> decide +kernel
  | ge => cases a <;> decide +kernel

theorem slotTotals_of_referenceSizes {c : Config} (h : ReferenceSizes c) : slotTotals (slot c) = tableTotals c.arith c.guard := by
  obtain ⟨hw, hh, -⟩ := h
  rw [slot_congr (d := referenceWith c.guard c.arith) hw hh rfl rfl]
  exact slotTotals_referenceWith c.guard c.arith

/-! ## MAP (spec 41 R69, R77 to R81) -/

/-- MAP ends with OK after the slot loop (spec 41 R80). -/
theorem execMap_completes {s : State} (h : s.ReadyToMap) : ∃ t, exec .map s = .next t := by
  obtain ⟨u, hu⟩ : ∃ u, mapAll s = .next u := mapSlots_completes h
  exact ⟨u.setResult .ok, andThen_next_iff.2 ⟨u, hu, rfl⟩⟩

theorem execMap_faults {s : State} {j idx : Nat} (h : FirstUnwritten s j idx) : exec .map s = .fault (.unwritten .lbuf idx) := by
  obtain ⟨hj, hread, hnone, hbefore⟩ := h
  have hloop : mapAll s = .fault (.unwritten .lbuf idx) := mapSlots_faults hj hread hnone hbefore
  show andThen (mapAll s) complete = _
  rw [hloop]
  rfl

/-- Where some READ slot's cell is unwritten there is a first such slot. -/
theorem exists_firstUnwritten {s : State} (h : ¬ s.ReadyToMap) : ∃ j idx, FirstUnwritten s j idx := by
  classical
  have hex : ∃ j, j < s.cfg.bufferSize ∧ ∃ idx, slot s.cfg j = .read idx ∧ s.lbuf.read idx = none := by
    simpa [State.ReadyToMap] using h
  obtain ⟨hj, idx, hread, hnone⟩ := Nat.find_spec hex
  refine ⟨Nat.find hex, idx, hj, hread, hnone, fun k i hk hki => ?_⟩
  by_contra hunwritten
  exact Nat.find_min hex hk ⟨hk.trans hj, i, hki, by simpa using hunwritten⟩

/-- MAP has two ends: it completes, or it faults at the first unwritten cell (spec 41 R80). -/
theorem execMap_cases (s : State) :
    (s.ReadyToMap ∧ ∃ t, exec .map s = .next t) ∨ (¬ s.ReadyToMap ∧ ∃ idx, exec .map s = .fault (.unwritten .lbuf idx)) := by
  by_cases h : s.ReadyToMap
  · exact .inl ⟨h, execMap_completes h⟩
  · obtain ⟨j, idx, hfirst⟩ := exists_firstUnwritten h
    exact .inr ⟨h, idx, execMap_faults hfirst⟩

/-- The byte a slot holds after the loop depends on the draw counter in an out-of-range slot only (spec 41 R81). -/
theorem mappedByte_congr {s₁ s₂ : State} {j : Nat} (hcfg : s₁.cfg = s₂.cfg) (hlbuf : s₁.lbuf = s₂.lbuf) (hpbuf : s₁.pbuf = s₂.pbuf)
    (hj : (slot s₁.cfg j).isOob = false) : mappedByte s₁ j = mappedByte s₂ j := by
  unfold mappedByte
  rw [← hcfg, ← hlbuf, ← hpbuf]
  cases hs : slot s₁.cfg j with
  | skip => rfl
  | read idx => rfl
  | oob idx => simp [hs, Slot.isOob] at hj

/-- The fields of a word given as its opcode and the bits below it. -/
theorem opcField_append (opc : Byte) (x : BitVec 24) : opcField (opc ++ x) = opc := by
  ext i hi
  rw [opcField, BitVec.getElem_extractLsb']
  exact BitVec.getLsbD_append.trans (by simp [hi])

theorem operandBits_append (opc : Byte) (x : BitVec 24) : operandBits (opc ++ x) = x := by
  ext i hi
  rw [operandBits, BitVec.getElem_extractLsb']
  exact BitVec.getLsbD_append.trans (by simp [hi])

/-- No operand bit of a word with MAP's opcode may be set (spec 30 R57 (b)). -/
theorem decode_map_operand {c : Config} {x : BitVec 24} (hx : x ≠ 0) : decode c ((0x03 : Byte) ++ x) = .error .mustBeZero := by
  unfold decode
  rw [opcField_append, operandBits_append]
  simpa using hx

end Sys2Proof.Machine
end

section
/-! Proofs of the statements of spec 41 (mapper). -/

namespace Sys2Proof.Proofs

open Sys2Proof.Machine Sys2Proof.Claims

/-- Settles O20: the two guards as they are defined, and a SKIP slot answers the state it was given. -/
theorem guardSkipsBeyondTheBounds : Obligations.GuardSkipsBeyondTheBounds := by
  refine ⟨fun _ _ _ => guardSkips_gt_iff, fun _ _ _ => guardSkips_ge_iff, fun j s hskip => ?_⟩
  rw [mapSlot, hskip]

/-- Settles O19: the two parity branches; the reference values are the cols and rows at their ends. -/
theorem parityBranchGivesFastAndSlow : Obligations.ParityBranchGivesFastAndSlow := by
  refine ⟨fun c j hj => ⟨rfl, rfl, slotRow_le j, slotCol_le hj, fun hodd => ⟨slotFast_of_odd hodd, slotSlow_of_odd hodd⟩,
    fun heven => ⟨slotFast_of_even heven, slotSlow_of_even heven⟩, slotFast_neg_iff, slotSlow_neg_iff⟩, fun c h => ?reference⟩
  case reference =>
    obtain ⟨hf, hs⟩ := reference_even_col h 0 (r := 0) (by decide)
    exact ⟨hf, hs, fun r hr => (reference_odd_col h 8 hr).1, fun k _ => (reference_odd_col h k (r := 7) (by decide)).2⟩

/-- Settles O21: a negative value lies above -16, so it wraps beyond both bounds; a nonnegative one looks the same either way. -/
theorem negativeIntermediatesWrapOnlyWhenUnsigned : Obligations.NegativeIntermediatesWrapOnlyWhenUnsigned := by
  refine ⟨fun x => ⟨rfl, rfl⟩, fun c j hv hj ha => ⟨fun hf => ?fast, fun hs => ?slow, slot_skip_of_negative hv hj ha,
    fun hf hs => slot_arith_irrelevant hv hj hf hs .signed, fun hskip => ?index⟩, fun c j ha => ?signed,
    fun c f v => ⟨guardSkips_of_neg_fast, guardSkips_of_neg_slow⟩⟩
  case fast =>
    have hlow := (slotFast_bounds hv hj).1
    rw [ha, view_unsigned_of_neg hlow hf]
    omega
  case slow =>
    have hlow := (slotSlow_bounds (j := j) hv).1
    rw [ha, view_unsigned_of_neg hlow hs]
    omega
  case index =>
    obtain ⟨hf0, hs0⟩ := nonneg_of_not_skip hv hj ha hskip
    obtain ⟨hf, hs⟩ := bounds_of_not_skip hv hj hskip
    exact ⟨slotIdx_nonneg hf0 hs0, slotIdx_le hf hs⟩
  case signed =>
    rw [slot_eq_skip_iff, ha]
    rfl

/-- Settles O22: the verdict of a slot that is not skipped is by its index, and an index outside LBUF comes from a bound let through. -/
theorem sourceIndexIsInRangeOrOutOfBounds : Obligations.SourceIndexIsInRangeOrOutOfBounds := by
  refine fun c j => ⟨rfl, fun hskip => (slot_of_not_skip hskip).1, fun hskip => (slot_of_not_skip hskip).2, fun idx hread => ?read,
    fun hf0 hf hs0 hs => ?pixel, fun hfast => ?rowAbove, fun hv hj idx => oob_cases hv hj⟩
  case read =>
    obtain ⟨-, hlt, hidx⟩ := slot_eq_read_iff.1 hread
    exact ⟨hlt, hidx⟩
  case pixel =>
    obtain ⟨⟨h0, hlt⟩, hcol, hrow⟩ := slotIdx_of_within hf0 hf hs0 hs
    exact ⟨h0, hlt, hcol, hrow⟩
  case rowAbove =>
    rw [slotIdx, hfast]
    ring

/-- Settles O23: each group of R82's table by its col and row; the switches matter at the boundary rows and in col 17 only. -/
theorem referenceSlotTableHasItsClosedForms : Obligations.ReferenceSlotTableHasItsClosedForms := by
  refine fun c h => ⟨fun _ _ => reference_read_even h, fun k hk => ?boundary, fun _ _ => reference_read_odd h, fun k hk => ?bottom,
    fun r hr => ?lastCol, ?first, ?last, slotTotals_of_referenceSizes h, fun ha _ _ _ => reference_pixel_slot h ha⟩
  case boundary =>
    cases hg : c.guard with
    | gt => exact reference_boundary_gt h hg hk
    | ge => exact reference_boundary_ge h hg hk
  case bottom =>
    cases ha : c.arith with
    | unsigned => exact reference_skip_unsigned h ha (r := 7) (by omega) (by decide) (.inl rfl)
    | signed => exact reference_oob_signed h ha (r := 7) (by decide) (by omega) (by omega)
  case lastCol =>
    cases ha : c.arith with
    | unsigned => exact reference_skip_unsigned h ha (k := 8) le_rfl (by omega) (.inr rfl)
    | signed => exact reference_last_col_signed h ha hr
  case first =>
    cases ha : c.arith with
    | unsigned => exact reference_skip_unsigned h ha (k := 8) (r := 6) le_rfl (by decide) (.inr rfl)
    | signed => exact reference_oob_signed h ha (k := 8) (r := 6) (by decide) (by decide) (by decide)
  case last =>
    cases ha : c.arith with
    | unsigned => exact reference_skip_unsigned h ha (k := 8) (r := 7) le_rfl (by decide) (.inr rfl)
    | signed => exact reference_oob_signed h ha (k := 8) (r := 7) (by decide) (by decide) (by decide)

/-- Settles O24: MAP is the slot loop and then RESULT = OK. -/
theorem mapWritesEachSlotByItsVerdict : Obligations.MapWritesEachSlotByItsVerdict := by
  refine fun s => ⟨rfl, fun x hx => ⟨_, decode_map_operand hx⟩, fun j idx => execMap_faults, fun hready => ?completes⟩
  case completes =>
    obtain ⟨t, ht⟩ := execMap_completes hready
    obtain ⟨u, hloop, rfl⟩ := execMap_next ht
    exact ⟨_, ht, hloop.own, hloop.other, State.result_setResult u .ok, oob_of_mapping (.inl ht), hloop.lbuf,
      ⟨hloop.cfg, hloop.hostIn, hloop.hostOut⟩, hloop.trace, hloop.busIn, hloop.busDraws⟩

/-- Settles O25: MAP completes or faults at an unwritten LBUF cell, by whether every READ cell is written. -/
theorem mapEndsOkUnlessACellIsUnwritten : Obligations.MapEndsOkUnlessACellIsUnwritten := by
  intro s
  have hok : ∀ t, exec .map s = .next t → t.result = 0 := fun t ht => by
    obtain ⟨u, -, rfl⟩ := execMap_next ht
    exact State.result_setResult u .ok
  obtain ⟨hready, t, ht⟩ | ⟨hready, idx, hfault⟩ := execMap_cases s
  · exact ⟨hok, ⟨fun _ => hready, fun _ => ⟨t, ht⟩⟩, by simp [ht], by simp [ht]⟩
  · exact ⟨hok, ⟨by simp [hfault], fun h => absurd h hready⟩, by simp [hfault], by simp [hfault]⟩

/-- Settles O26: a slot's byte depends on the draw counter in an OOB slot only, and GE with UNSIGNED leaves no such slot. -/
theorem mapIsDeterministicOutsideOobSlots : Obligations.MapIsDeterministicOutsideOobSlots := by
  intro s₁ s₂ t₁ t₂ hcfg hlbuf hpbuf ht₁ ht₂
  obtain ⟨u₁, h₁, rfl⟩ := execMap_next ht₁
  obtain ⟨u₂, h₂, rfl⟩ := execMap_next ht₂
  rw [← hcfg] at h₂
  have hslots : ∀ j, j < s₁.cfg.bufferSize → (slot s₁.cfg j).isOob = false → u₁.pbuf.read (1 + j) = u₂.pbuf.read (1 + j) :=
    fun j hj hin => by rw [h₁.own j hj, h₂.own j hj, mappedByte_congr hcfg hlbuf hpbuf hin]
  refine ⟨hslots, fun hv hg ha => ?_⟩
  have hin : ∀ j, j < s₁.cfg.bufferSize → (slot s₁.cfg j).isOob = false := fun j => not_isOob_of_ge_unsigned hv hg ha
  refine ⟨hin, fun i => ?_⟩
  show u₁.pbuf.read i = u₂.pbuf.read i
  by_cases hi : i = 0 ∨ s₁.cfg.bufferSize < i
  · rw [h₁.other i hi, h₂.other i hi, hpbuf]
  · obtain ⟨j, rfl⟩ := Nat.exists_eq_add_of_le (show 1 ≤ i by omega)
    have hj : j < s₁.cfg.bufferSize := by omega
    exact hslots j hj (hin j hj)

end Sys2Proof.Proofs
end

section
/-! Facts about DRAW and about the transactions of INIT under given answers of the bus (spec 42): the layer the statements of spec 42 are
settled from. -/

namespace Sys2Proof.Machine

open Sys2Proof.Proofs Sys2Proof.Claims

/-- No operand bit of a word with the opcode of MAP, DRAW or INIT may be set (spec 30 R57 (b)). -/
theorem decode_error_of_operand (c : Config) {opc : Byte} (hopc : opc = 0x03 ∨ opc = 0x04 ∨ opc = 0x05) {x : BitVec 24} (hx : x ≠ 0) :
    ∃ e, decode c (opc ++ x) = .error e := by
  refine decode_error_of_illegalByR57 (illegalByR57_iff.2 (.inr (.inr (.inr (.inl ?_)))))
  rw [opcField_append, operandBits_append]
  exact ⟨hopc, hx⟩

/-! ## The three ends of DRAW (spec 42 R84, R85) -/

/-- DRAW's frame byte is what the slot loop maps into a cleared PBUF. -/
theorem mappedByte_clearPayload {s : State} {j : Nat} (hj : j < s.cfg.bufferSize) : mappedByte s.clearPayload j = frameByte s j := by
  have hcell : 1 + j ∈ payloadCells s.cfg.bufferSize := mem_payloadCells.2 (by omega)
  unfold mappedByte frameByte
  rw [State.clearPayload_cfg]
  cases slot s.cfg j with
  | skip => simp [Memory.read_fill, hcell]
  | read idx => rfl
  | oob idx => rfl

theorem execDraw_faults {s : State} {j idx : Nat} (h : FirstUnwritten s j idx) : exec .draw s = .fault (.unwritten .lbuf idx) := by
  obtain ⟨hj, hread, hnone, hbefore⟩ := h
  have hloop : mapAll s.clearPayload = .fault (.unwritten .lbuf idx) := mapSlots_faults hj hread hnone hbefore
  show andThen (mapAll s.clearPayload) sendFrame = _
  rw [hloop]
  rfl

theorem execDraw_stalls {s : State} (hready : s.ReadyToMap) (hbus : ¬ BusAnswers s) : exec .draw s = .fault .busNeverAnswers := by
  obtain ⟨-, -, hdraw, -⟩ := aBusThatNeverAnswersStopsTheCommand
  exact hdraw s (not_not.1 hbus) hready

theorem execDraw_completes {s : State} (hready : s.ReadyToMap) (hbus : BusAnswers s) : ∃ t, exec .draw s = .next t := by
  obtain ⟨u, hu, hsend, hkept⟩ := mapAll_clearPayload_completes hready
  have hcells : ∀ i ∈ payloadCells u.cfg.bufferSize, (u.pbuf.read i).isSome := fun i hi => by
    obtain ⟨h1, hmax⟩ := mem_payloadCells.1 hi
    exact hsend i h1 hmax
  obtain ⟨payload, hp⟩ := exists_readAll_of_isSome hcells
  have hbus : BusAnswers u := by rwa [BusAnswers, hkept]
  obtain ⟨t, _, ht, -⟩ := blockWrite_completes (reg := u.cfg.regImage) hp hbus
  exact ⟨t, andThen_next_iff.2 ⟨u, hu, ht⟩⟩

/-- Which end DRAW comes to is decided by LBUF and the bus alone: no case looks at PBUF. -/
theorem execDraw_cases (s : State) :
    (s.ReadyToMap ∧ BusAnswers s ∧ ∃ t, exec .draw s = .next t) ∨
    (s.ReadyToMap ∧ ¬ BusAnswers s ∧ exec .draw s = .fault .busNeverAnswers) ∨
    ∃ j idx, FirstUnwritten s j idx ∧ exec .draw s = .fault (.unwritten .lbuf idx) := by
  by_cases hready : s.ReadyToMap
  · by_cases hbus : BusAnswers s
    · exact .inl ⟨hready, hbus, execDraw_completes hready hbus⟩
    · exact .inr (.inl ⟨hready, hbus, execDraw_stalls hready hbus⟩)
  · obtain ⟨j, idx, hfirst⟩ := exists_firstUnwritten hready
    exact .inr (.inr ⟨j, idx, hfirst, execDraw_faults hfirst⟩)

theorem ready_of_execDraw_next {s t : State} (h : exec .draw s = .next t) : s.ReadyToMap ∧ BusAnswers s := by
  obtain ⟨hready, hbus, -⟩ | ⟨-, -, hfault⟩ | ⟨j, idx, -, hfault⟩ := execDraw_cases s
  · exact ⟨hready, hbus⟩
  · rw [hfault] at h
    cases h
  · rw [hfault] at h
    cases h

/-! ## What a DRAW that completes leaves -/

theorem transact_one_sends_nextOutcome {bytes : List Byte} {s t : State} (h : transact [bytes] s = .next t) :
    SendsOne s bytes s.nextOutcome t := by
  obtain ⟨out, hsend⟩ := transact_one_sends h
  have hout : out = s.nextOutcome := by simpa using hsend.trace.symm.trans (transact_one_trace h)
  exact hout ▸ hsend

/-- `t` is what a DRAW from `s` leaves that sends `frame`; what DRAW does not touch is in `CommandEffect`. -/
structure DrawEffect (s : State) (frame : List Byte) (t : State) : Prop where
  length : frame.length = s.cfg.bufferSize
  byte : ∀ j, j < s.cfg.bufferSize → frame[j]? = frameByte s j
  trace : t.trace = s.trace ++ [⟨s.cfg.devAddr, s.cfg.regImage :: frame, s.nextOutcome⟩]
  result : t.result = resultOf s.nextOutcome
  busIn : t.busIn = s.busIn.tail
  registerCell : t.pbuf.read 0 = some s.cfg.regImage
  frameCell : ∀ j, j < s.cfg.bufferSize → t.pbuf.read (1 + j) = frame[j]?

theorem execDraw_next_effect {s t : State} (h : exec .draw s = .next t) : ∃ frame, DrawEffect s frame t := by
  obtain ⟨u, hloop, hsend⟩ := execDraw_next h
  rw [hloop.cfg, State.clearPayload_cfg] at hsend
  obtain ⟨frame, hp, ht⟩ := blockWrite_next_iff.1 hsend
  obtain ⟨hlen, hcell⟩ := (readAll_payload_iff _ _ _).1 hp
  have hone := transact_one_sends_nextOutcome ht
  have hout : (u.writeCell .pbuf 0 s.cfg.regImage).nextOutcome = s.nextOutcome := State.nextOutcome_congr hloop.busIn hloop.busDraws
  have hpbuf : t.pbuf = u.pbuf.write 0 s.cfg.regImage := hone.pbuf
  have htrace := hone.trace
  rw [State.writeCell_trace, State.writeCell_cfg, hloop.trace, hloop.cfg, hout] at htrace
  exact ⟨frame, {
    length := hlen
    byte := fun j hj => by rw [← hcell j hj, hloop.own j hj, mappedByte_clearPayload hj]
    trace := htrace
    result := hout ▸ hone.result
    busIn := hone.busIn.trans (congrArg List.tail hloop.busIn)
    registerCell := by rw [hpbuf, Memory.read_write_same]
    frameCell := fun j hj => by rw [hpbuf, Memory.read_write_other _ _ (by omega), hcell j hj] }⟩

/-- The frame is a function of LBUF and the draws: another PBUF gives the same one. -/
theorem DrawEffect.frame_unique {s t u : State} {p : Memory} {frame frame' : List Byte} (h : DrawEffect s frame t)
    (h' : DrawEffect { s with pbuf := p } frame' u) : frame' = frame := by
  apply List.ext_getElem?
  intro j
  by_cases hj : j < s.cfg.bufferSize
  · exact (h'.byte j hj).trans (h.byte j hj).symm
  · have hlen : frame.length = s.cfg.bufferSize := h.length
    have hlen' : frame'.length = s.cfg.bufferSize := h'.length
    rw [List.getElem?_eq_none (by omega), List.getElem?_eq_none (by omega)]

theorem State.statusWord_congr {s t : State} (hresult : s.result = t.result) (hoob : s.oob = t.oob) : s.statusWord = t.statusWord := by
  apply BitVec.eq_of_getLsbD_eq
  intro i _
  by_cases h2 : 2 ≤ i
  · by_cases h8 : i = 8
    · rw [h8, State.statusWord_oob, State.statusWord_oob, hoob]
    · rw [State.statusWord_reserved s h2 h8, State.statusWord_reserved t h2 h8]
  · rw [← State.statusWord_result, ← State.statusWord_result] at hresult
    simpa [show i < 2 by omega] using congrArg (BitVec.getLsbD · i) hresult

/-- With its reserved bits 0 the register is the word it reads as (spec 10 R26). -/
theorem State.StatusOk.statusWord_eq {s : State} (h : s.StatusOk) : s.statusWord = s.status :=
  calc s.status &&& statusMask
    _ = s.status &&& statusMask ||| s.status &&& ~~~statusMask := by rw [h.reserved]; exact BitVec.or_zero.symm
    _ = s.status := by
      rw [← BitVec.and_or_distrib_left, show statusMask ||| ~~~statusMask = BitVec.allOnes 32 by decide, BitVec.and_allOnes]

/-! ## The transactions of one command under given answers (spec 20 R47, 42 R88) -/

/-- The records of transactions that were all answered with ok. -/
def okRecords (c : Config) (txs : List (List Byte)) : List BusRecord := txs.map (fun bytes => ⟨c.devAddr, bytes, .ok⟩)

/-- Transactions answered with ok are issued in order, and the rest goes on from the state they leave. -/
theorem State.sendAll_append_of_busOk {front rest : List (List Byte)} {s : State} (h : s.BusOk front.length) :
    ∃ u, State.sendAll (front ++ rest) s = State.sendAll rest u ∧ u.cfg = s.cfg ∧ u.trace = s.trace ++ okRecords s.cfg front ∧
      u.busIn = s.busIn.drop front.length := by
  induction front generalizing s with
  | nil => exact ⟨s, rfl, rfl, (List.append_nil _).symm, rfl⟩
  | cons bytes front ih =>
    have hok : s.nextOutcome = .ok := (answered_nextOutcome s).1 (List.head?_eq_getElem?.trans (h 0 (Nat.succ_pos _)))
    have htail : (s.record bytes).BusOk front.length := fun k hk => List.getElem?_tail.trans (h (k + 1) (Nat.succ_lt_succ hk))
    obtain ⟨u, hsend, hcfg, htrace, hbus⟩ := ih htail
    refine ⟨u, ?_, hcfg, ?_, hbus.trans List.drop_tail⟩
    · simp only [List.cons_append, State.sendAll, hok, hsend]
    · simp [htrace, hok, okRecords]

theorem busAnswersUpTo_of_busOk {s : State} {n : Nat} (h : s.BusOk n) : BusAnswersUpTo s n := by
  intro k hk _
  simp [h k hk]

theorem busAnswersUpTo_of_busFailsAt {s : State} {k : Nat} (h : BusFailsAt s k) (n : Nat) : BusAnswersUpTo s n := by
  obtain ⟨hok, hfail⟩ := h
  intro m _ hbefore
  obtain hlt | rfl | hgt := lt_trichotomy m k
  · simp [hok m hlt]
  · simp [hfail]
  · simp [hbefore k hgt] at hfail

theorem transact_completes {txs : List (List Byte)} {s : State} (h : BusAnswersUpTo s txs.length) :
    transact txs s = .next (State.sendAll txs s) :=
  transact_next_iff.2 ⟨Bool.eq_false_of_not_eq_true fun hstall => (busStalls_iff s _).1 hstall h, rfl⟩

theorem transact_of_busOk {txs : List (List Byte)} {s : State} (h : s.BusOk txs.length) :
    ∃ t, transact txs s = .next t ∧ t.trace = s.trace ++ okRecords s.cfg txs ∧ t.result = 0 ∧ t.busIn = s.busIn.drop txs.length := by
  obtain ⟨u, hsend, -, htrace, hbus⟩ := State.sendAll_append_of_busOk (rest := []) h
  rw [List.append_nil] at hsend
  exact ⟨_, transact_completes (busAnswersUpTo_of_busOk h), hsend ▸ htrace, hsend ▸ State.result_setResult u .ok, hsend ▸ hbus⟩

/-- The transaction that is answered with fail is the last one issued. -/
theorem transact_of_busFailsAt {txs : List (List Byte)} {bytes : List Byte} {k : Nat} {s : State} (h : BusFailsAt s k)
    (hk : txs[k]? = some bytes) :
    ∃ t, transact txs s = .next t ∧ t.trace = s.trace ++ okRecords s.cfg (txs.take k) ++ [⟨s.cfg.devAddr, bytes, .fail⟩] ∧
      t.result = 1 ∧ t.busIn = s.busIn.drop (k + 1) := by
  obtain ⟨hlt, hget⟩ := List.getElem?_eq_some_iff.1 hk
  have hlen : (txs.take k).length = k := List.length_take_of_le hlt.le
  have hsplit : txs = txs.take k ++ bytes :: txs.drop (k + 1) := by
    rw [← hget, ← List.drop_eq_getElem_cons hlt, List.take_append_drop]
  obtain ⟨hok, hfail⟩ := h
  have hfront : s.BusOk (txs.take k).length := fun m hm => hok m (hlen ▸ hm)
  obtain ⟨u, hsend, hcfg, htrace, hbus⟩ := State.sendAll_append_of_busOk (rest := bytes :: txs.drop (k + 1)) hfront
  rw [hlen] at hbus
  have hout : u.nextOutcome = .fail := (answered_nextOutcome u).2 (by simpa [hbus] using hfail)
  rw [← hsplit, State.sendAll, hout] at hsend
  refine ⟨_, transact_completes (busAnswersUpTo_of_busFailsAt ⟨hok, hfail⟩ _), ?_⟩
  rw [hsend]
  exact ⟨by simp [htrace, hcfg, hout], State.result_setResult _ _, by simp [hbus]⟩

/-- The code of the result is the value of RESULT the records call for. -/
theorem IssuedRecords.stoppedAtFirstFail {c : Config} {txs : List (List Byte)} {recs : List BusRecord} {r : Result}
    (h : IssuedRecords c txs recs r) : StoppedAtFirstFail c txs recs (r.code.extractLsb' 0 2) := by
  obtain ⟨hsent, haddr, hend⟩ := h
  refine ⟨hsent, haddr, ?_⟩
  obtain ⟨hlen, hok, rfl⟩ | ⟨front, last, hrecs, hok, hfail, rfl⟩ := hend
  · exact .inl ⟨hlen, hok, rfl⟩
  · exact .inr ⟨front, last, hrecs, hok, hfail, rfl⟩

/-! ## INIT (spec 42 R86 to R90) -/

theorem execInit_completes {s : State} (h : BusAnswersUpTo s 9) :
    ∃ t recs, exec .init s = .next t ∧ t.trace = s.trace ++ recs ∧ StoppedAtFirstFail s.cfg (initSequence s.cfg) recs t.result := by
  have ht : transact (initSequence s.cfg) s = .next _ := transact_completes h
  obtain ⟨-, -, -, -, -, -, -, recs, r, htrace, hresult, hissued⟩ := transact_next ht
  exact ⟨_, recs, ht, htrace, hresult ▸ hissued.stoppedAtFirstFail⟩

theorem execInit_of_busOk {s : State} (h : s.BusOk 9) :
    ∃ t, exec .init s = .next t ∧ t.trace = s.trace ++ initRecords s.cfg ∧ t.result = 0 ∧ t.busIn = s.busIn.drop 9 :=
  transact_of_busOk (txs := initSequence s.cfg) h

theorem execInit_of_busFailsAt {s : State} {k : Nat} {bytes : List Byte} (h : BusFailsAt s k)
    (hk : (initSequence s.cfg)[k]? = some bytes) :
    ∃ t, exec .init s = .next t ∧ t.trace = s.trace ++ (initRecords s.cfg).take k ++ [⟨s.cfg.devAddr, bytes, .fail⟩] ∧ t.result = 1 ∧
      t.busIn = s.busIn.drop (k + 1) := by
  rw [initRecords, ← List.map_take]
  exact transact_of_busFailsAt h hk

/-- The page is the one last selected with ok, where no later record writes the selector. -/
theorem ctlPage_select_append (c : Config) (before : List BusRecord) (p : Byte) {after : List BusRecord}
    (h : ∀ r ∈ after, r.bytes.head? ≠ some c.regCmd) : ctlPage c (before ++ [⟨c.devAddr, [c.regCmd, p], .ok⟩] ++ after) = some p :=
  (ctlPage_eq_some_iff c _ p).2 ⟨before, after, rfl, h⟩

/-- A selector write that failed leaves the page UNKNOWN. -/
theorem ctlPage_failed_select (c : Config) (trace : List BusRecord) (p : Byte) :
    ctlPage c (trace ++ [⟨c.devAddr, [c.regCmd, p], .fail⟩]) = none := by
  rw [ctlPage_snoc]
  simp [BusRecord.touchesPage, BusRecord.pageSet]

theorem State.page_of_execInit {s t : State} (h : exec .init s = .next t) : t.page = ctlPage s.cfg t.trace := by
  rw [State.page, (exec_next_effect h).cfg]

/-- Where the step that fails comes after a selector write that did not, with no other selector write from there on, the page is the one
selected. -/
theorem execInit_fails_after_select {s : State} {front middle rest : List (List Byte)} {bytes : List Byte} {p : Byte}
    (hseq : initSequence s.cfg = front ++ [s.cfg.regCmd, p] :: middle ++ bytes :: rest)
    (huntouched : ∀ b ∈ middle ++ [bytes], b.head? ≠ some s.cfg.regCmd)
    (hfail : BusFailsAt s (front ++ [s.cfg.regCmd, p] :: middle).length) : ∃ t, exec .init s = .next t ∧ t.page = some p := by
  have hbytes : (initSequence s.cfg)[(front ++ [s.cfg.regCmd, p] :: middle).length]? = some bytes := by
    rw [hseq, List.getElem?_append_right le_rfl, Nat.sub_self, List.getElem?_cons_zero]
  obtain ⟨t, ht, htrace, -⟩ := execInit_of_busFailsAt hfail hbytes
  refine ⟨t, ht, ?_⟩
  have hsplit : t.trace = (s.trace ++ okRecords s.cfg front) ++ [⟨s.cfg.devAddr, [s.cfg.regCmd, p], .ok⟩] ++
      (okRecords s.cfg middle ++ [⟨s.cfg.devAddr, bytes, .fail⟩]) := by
    rw [htrace, initRecords, ← List.map_take, hseq, List.take_left]
    simp [okRecords]
  rw [State.page_of_execInit ht, hsplit]
  exact ctlPage_select_append s.cfg _ p (by simpa [okRecords, or_imp, forall_and] using huntouched)

/-- Steps 2 to 6 of INIT write other registers than the selector. -/
theorem initSequence_middle_untouched {c : Config} (hmode : c.regMode ≠ c.regCmd) (hframe : c.regFrame ≠ c.regCmd)
    (hnullA : c.regNullA ≠ c.regCmd) (hnullB : c.regNullB ≠ c.regCmd) (hshutdown : (0x0a : Byte) ≠ c.regCmd) :
    ∀ bytes ∈ (initSequence c).tail.take 5, bytes.head? ≠ some c.regCmd := by
  simpa [initSequence, regShutdown] using ⟨hmode, hframe, hnullA, hnullB, hshutdown⟩

end Sys2Proof.Machine
end

section
/-! Proofs of the statements of spec 42 (frame and initialisation sequencing). -/

namespace Sys2Proof.Proofs

open Sys2Proof.Machine Sys2Proof.Claims

/-! ## DRAW -/

/-- Settles O28: the slot loop over the cleared PBUF maps the frame, and the block write sends it and leaves it in place. -/
theorem drawSendsTheMappedFrame : Obligations.DrawSendsTheMappedFrame := by
  refine fun s => ⟨rfl, fun x => decode_error_of_operand s.cfg (.inr (.inl rfl)), fun j idx => execDraw_faults, fun hready hbus => ?sends⟩
  case sends =>
    obtain ⟨t, ht⟩ := execDraw_completes hready hbus
    obtain ⟨frame, hdraw⟩ := execDraw_next_effect ht
    have heff := exec_next_effect ht
    exact ⟨t, s.nextOutcome, frame, ht, answered_nextOutcome s, hdraw.length, hdraw.trace,
      fun j hj => ⟨hdraw.byte j hj, hdraw.frameCell j hj⟩, hdraw.registerCell, fun i hi => heff.pbuf.read_beyond hi, hdraw.result,
      oob_of_mapping (.inr ht), heff.lbuf, ⟨heff.cfg, heff.hostIn, heff.hostOut⟩, hdraw.busIn⟩

/-- Settles O29: a completed DRAW appends the frame's record, and the first unwritten cell is the same on every bus. -/
theorem drawIssuesExactlyOneTransaction : Obligations.DrawIssuesExactlyOneTransaction := by
  refine ⟨fun s t h => ?one, fun s b idx answers h => ?none⟩
  case one =>
    obtain ⟨frame, hdraw⟩ := execDraw_next_effect h
    exact ⟨_, hdraw.trace, rfl, congrArg (· + 1) hdraw.length, rfl⟩
  case none =>
    obtain ⟨-, -, t, ht⟩ | ⟨-, -, hfault⟩ | ⟨j, i, hfirst, hfault⟩ := execDraw_cases s
    · rw [ht] at h
      cases h
    · rw [hfault] at h
      cases h
    · rw [hfault] at h
      cases h
      exact ⟨rfl, execDraw_faults (s := { s with busIn := answers }) hfirst⟩

/-- Settles O30: which end DRAW comes to, its frame, its outcome and OOB are decided without PBUF, and STATUS is RESULT and OOB. -/
theorem drawDoesNotDependOnOldPbuf : Obligations.DrawDoesNotDependOnOldPbuf := by
  refine fun s p => ⟨fun t ht => ?completes, fun f hf => ?stops⟩
  case completes =>
    obtain ⟨hready, hbus⟩ := ready_of_execDraw_next ht
    obtain ⟨u, hu⟩ := execDraw_completes (s := { s with pbuf := p }) hready hbus
    obtain ⟨frame, hdraw⟩ := execDraw_next_effect ht
    obtain ⟨frame', hdraw'⟩ := execDraw_next_effect hu
    obtain rfl := hdraw.frame_unique hdraw'
    have hstatus : u.statusWord = t.statusWord :=
      State.statusWord_congr (hdraw'.result.trans hdraw.result.symm) ((oob_of_mapping (.inr hu)).trans (oob_of_mapping (.inr ht)).symm)
    refine ⟨u, hu, hdraw'.trace.trans hdraw.trace.symm, ?_, fun i hi => ?_⟩
    · rwa [(exec_next_effect hu).statusOk.statusWord_eq, (exec_next_effect ht).statusOk.statusWord_eq] at hstatus
    · cases i with
      | zero => exact hdraw'.registerCell.trans hdraw.registerCell.symm
      | succ j =>
        rw [Nat.add_comm j 1]
        exact (hdraw'.frameCell j hi).trans (hdraw.frameCell j hi).symm
  case stops =>
    obtain ⟨-, -, t, ht⟩ | ⟨hready, hbus, hfault⟩ | ⟨j, idx, hfirst, hfault⟩ := execDraw_cases s
    · rw [ht] at hf
      cases hf
    · rw [hfault] at hf
      cases hf
      exact execDraw_stalls (s := { s with pbuf := p }) hready hbus
    · rw [hfault] at hf
      cases hf
      exact execDraw_faults (s := { s with pbuf := p }) hfirst

/-- Settles O31: DRAW's one record begins with REG_IMAGE. -/
theorem drawKeepsThePage : Obligations.DrawKeepsThePage := by
  intro s t hreg h
  obtain ⟨frame, hdraw⟩ := execDraw_next_effect h
  rw [State.page, (exec_next_effect h).cfg, hdraw.trace, ctlPage_snoc, if_neg (by simpa [BusRecord.touchesPage] using hreg)]
  rfl

/-- Settles O32: DRAW leaves its frame in PBUF[1..BUFFER_SIZE], which is the payload of the block write. -/
theorem wblkAfterDrawResendsTheFrame : Obligations.WblkAfterDrawResendsTheFrame := by
  intro s t hv h hbus
  obtain ⟨-, -, -, hmin, hmax, -⟩ := (config_valid_iff s.cfg).1 hv
  obtain ⟨frame, hdraw⟩ := execDraw_next_effect h
  have hcfg : t.cfg = s.cfg := (exec_next_effect h).cfg
  have hlegal : legalLength t.cfg (BitVec.ofNat 8 s.cfg.bufferSize) = true := by
    rw [hcfg]
    exact (legalLength_ofNat_iff (by omega)).2 ⟨hmin, le_rfl⟩
  have hlen : (BitVec.ofNat 8 s.cfg.bufferSize).toNat = s.cfg.bufferSize := Nat.mod_eq_of_lt (by omega)
  have hpayload : t.pbuf.readAll (payloadCells s.cfg.bufferSize) = .ok frame :=
    (readAll_payload_iff _ _ _).2 ⟨hdraw.length, hdraw.frameCell⟩
  obtain ⟨u, out, hu, hsend⟩ := blockWrite_completes (reg := s.cfg.regImage) hpayload hbus
  rw [exec_wblk_of_legalLength hlegal, hlen]
  exact ⟨u, _, _, hu, hdraw.trace, hsend.trace, rfl⟩

/-! ## INIT -/

/-- Settles O34: INIT is its transactions and nothing else, so it reads no buffer cell. -/
theorem initStopsAtTheFirstFailure : Obligations.InitStopsAtTheFirstFailure := by
  refine fun s => ⟨rfl, fun x => decode_error_of_operand s.cfg (.inr (.inr rfl)), fun b i h => ?noFault, fun hbus => ?completes⟩
  case noFault =>
    obtain ⟨-, hf⟩ := transact_fault_iff.1 (show transact (initSequence s.cfg) s = .fault (.unwritten b i) from h)
    cases hf
  case completes =>
    obtain ⟨t, recs, ht, htrace, hstop⟩ := execInit_completes hbus
    obtain ⟨hcfg, hlbuf, hpbuf, hin, hout, hdraws, hoob, -⟩ := transact_next (show transact (initSequence s.cfg) s = .next t from ht)
    exact ⟨t, recs, ht, htrace, hstop, hlbuf, hpbuf, hoob, ⟨hcfg, hin, hout⟩, hdraws⟩

/-- Settles O35: transactions answered with ok leave their records, and the first fail is the last one. -/
theorem initRecordsFollowTheAnswers : Obligations.InitRecordsFollowTheAnswers :=
  ⟨fun _ => execInit_of_busOk, fun _ _ _ _ => execInit_of_busFailsAt⟩

/-- Settles O36: what INIT issues depends on the configuration alone, which INIT keeps. -/
theorem initMayBeRepeated : Obligations.InitMayBeRepeated := by
  intro s t h
  have hcfg : t.cfg = s.cfg := (exec_next_effect h).cfg
  rw [← hcfg]
  refine ⟨execInit_completes, fun hok => ?_⟩
  obtain ⟨u, hu, htrace, hresult, -⟩ := execInit_of_busOk hok
  exact ⟨u, hu, htrace, hresult⟩

/-- Settles O37: the last selector write INIT issued decides the page: step 1, 7 or 9 itself where it failed, else the last of them
before the end. -/
theorem initLeavesTheControllerPage : Obligations.InitLeavesTheControllerPage := by
  refine fun s hmode => ⟨fun hok => ?complete, fun k hk hfail => ?selector, fun k h1 h5 hfail hframe hnullA hnullB hshutdown => ?middle,
    fun hfail => ?enable⟩
  case complete =>
    obtain ⟨t, ht, htrace, -⟩ := execInit_of_busOk hok
    have hlast : t.trace = (s.trace ++ (initRecords s.cfg).take 8) ++ [⟨s.cfg.devAddr, [s.cfg.regCmd, pageFrame0], .ok⟩] ++ [] := by
      rw [htrace, List.append_nil, List.append_assoc]
      rfl
    refine ⟨t, ht, ?_⟩
    rw [State.page_of_execInit ht, hlast]
    exact ctlPage_select_append s.cfg _ pageFrame0 (List.forall_mem_nil _)
  case selector =>
    obtain ⟨p, hp⟩ : ∃ p, (initSequence s.cfg)[k]? = some [s.cfg.regCmd, p] := by
      obtain rfl | rfl | rfl := hk <;> exact ⟨_, rfl⟩
    obtain ⟨t, ht, htrace, -⟩ := execInit_of_busFailsAt hfail hp
    exact ⟨t, ht, by rw [State.page_of_execInit ht, htrace, ctlPage_failed_select]⟩
  case middle =>
    obtain ⟨n, rfl⟩ := Nat.exists_eq_add_of_le' h1
    have hn : n < (initSequence s.cfg).tail.length := by simp [initSequence]; omega
    refine execInit_fails_after_select (front := []) (middle := (initSequence s.cfg).tail.take n)
      (bytes := (initSequence s.cfg).tail[n]) (rest := (initSequence s.cfg).tail.drop (n + 1)) ?_ (fun b hb => ?_) ?_
    · rw [List.nil_append, List.cons_append, ← List.drop_eq_getElem_cons hn, List.take_append_drop]
      rfl
    · rw [List.take_append_getElem hn] at hb
      exact initSequence_middle_untouched hmode hframe hnullA hnullB hshutdown b (List.take_subset_take_left _ (by omega) hb)
    · rwa [List.nil_append, List.length_cons, List.length_take_of_le hn.le]
  case enable =>
    exact execInit_fails_after_select (front := (initSequence s.cfg).take 6) (middle := []) rfl (by simpa [regEnable] using hmode) hfail

/-- Settles O33: the sequence by its definition, the records by what every INIT that completes sends. -/
theorem initSequenceIsTheNineSteps : Obligations.InitSequenceIsTheNineSteps := by
  refine ⟨fun c => rfl, fun c hw => ?lengths, fun s t h => ?issued⟩
  case lengths =>
    have hlen : (initSequence c).map List.length = [2, 2, 2, 2, 2, 2, 2, 19, 2] := by simp [initSequence, Config.enableLen, hw]
    exact ⟨hlen, by rw [hlen]; rfl⟩
  case issued =>
    obtain ⟨-, -, -, -, hinit, -⟩ := eachCommandPutsItsBytesOnTheBus s t
    obtain ⟨recs, htrace, hsent, -⟩ := hinit h
    obtain ⟨hpbuf, -⟩ := execInit_next h
    exact ⟨hpbuf, recs, htrace, hsent⟩

end Sys2Proof.Proofs
end

section
/-! Facts about how a command ends, by which result and with which records, and about OOB over an event of the outside (spec 60): the layer
the statements of spec 60 are settled from. -/

namespace Sys2Proof.Machine

open Sys2Proof.Claims Sys2Proof.Proofs

/-! ## The two ways a CMD write completes (spec 60 R96, R98, R100) -/

theorem writeCmd_next_cases {w : Word} {s t : State} (h : writeCmd w s = .next t) :
    (∃ i, decode s.cfg w = .ok i ∧ exec i s = .next t) ∨ (IllegalByR57 s.cfg w ∧ t = s.setResult .illegal) := by
  cases hdec : decode s.cfg w with
  | ok i => exact .inl ⟨i, rfl, (writeCmd_of_decode hdec).symm.trans h⟩
  | error e =>
    have hillegal : IllegalByR57 s.cfg w := illegalByR57_of_decode_error hdec
    rw [writeCmd_illegal hillegal] at h
    cases h
    exact .inr ⟨hillegal, rfl⟩

theorem Result.code_eq_one_iff {r : Result} : r.code.extractLsb' 0 2 = 1 ↔ r = .busError := by
  cases r <;> decide

theorem Result.code_eq_two_iff {r : Result} : r.code.extractLsb' 0 2 = 2 ↔ r = .illegal := by
  cases r <;> decide

/-! ## The result of a legal command (spec 60 R95, R100) -/

/-- Transactions end with OK or BUS_ERROR. -/
theorem IssuedRecords.ne_illegal {c : Config} {txs : List (List Byte)} {recs : List BusRecord} {r : Result}
    (h : IssuedRecords c txs recs r) : r ≠ .illegal := by
  obtain ⟨-, -, ⟨-, -, rfl⟩ | ⟨-, -, -, -, -, rfl⟩⟩ := h
  · exact Result.noConfusion
  · exact Result.noConfusion

/-- The sequence stops at the first fail, so only its last record can be one. -/
theorem IssuedRecords.busError_iff {c : Config} {txs : List (List Byte)} {recs : List BusRecord} {r : Result}
    (h : IssuedRecords c txs recs r) : r = .busError ↔ ∃ front last, recs = front ++ [last] ∧ last.outcome = .fail := by
  obtain ⟨-, -, ⟨-, hok, rfl⟩ | ⟨front, last, hrecs, -, hfail, rfl⟩⟩ := h
  · refine iff_of_false Result.noConfusion ?_
    rintro ⟨front, last, rfl, hfail⟩
    rw [hok last (by simp)] at hfail
    cases hfail
  · exact iff_of_true rfl ⟨front, last, hrecs, hfail⟩

/-- What a command does before its transactions leaves TRACE and the configuration as they were. -/
theorem PbufWork.issues {s u t : State} {txs : List (List Byte)} (h : PbufWork s u) (ht : Machine.transact txs u = .next t) :
    ∃ recs r, t.trace = s.trace ++ recs ∧ t.result = r.code.extractLsb' 0 2 ∧ IssuedRecords s.cfg txs recs r := by
  obtain ⟨-, -, -, -, -, -, -, hissued⟩ := transact_next ht
  rwa [h.trace, h.cfg] at hissued

/-- A legal command that completes ends as its transactions end, of which MAP has none. -/
theorem exec_next_issues {i : Instr} {s t : State} (hwf : i.wf s.cfg = true) (h : exec i s = .next t) :
    ∃ txs recs r, t.trace = s.trace ++ recs ∧ t.result = r.code.extractLsb' 0 2 ∧ IssuedRecords s.cfg txs recs r := by
  obtain ⟨reg, val, -, ht⟩ | ⟨reg, len, payload, -, -, -, ht⟩ | ⟨reg, len, rfl, hlen, -⟩ | ⟨u, -, hu, rfl⟩ |
    ⟨u, payload, -, hu, -, ht⟩ | ⟨-, ht⟩ := exec_next_cases h
  · exact ⟨_, (PbufWork.refl s).issues ht⟩
  · exact ⟨_, (PbufWork.writeCell s (Nat.succ_pos _) reg).issues ht⟩
  · exact absurd (hwf.symm.trans hlen) Bool.noConfusion
  · have htrace : u.trace = s.trace := (PbufWork.of_mapAll hu).trace
    exact ⟨[], [], .ok, by simp [htrace], State.result_setResult u .ok, List.nil_prefix, by simp, .inl (by simp)⟩
  · have hmapped : PbufWork s u := (PbufWork.clearPayload s).trans (.of_mapAll hu)
    exact ⟨_, (hmapped.trans (.writeCell u (Nat.succ_pos _) _)).issues ht⟩
  · exact ⟨_, (PbufWork.refl s).issues ht⟩

theorem exec_next_result_ne_illegal {i : Instr} {s t : State} (hwf : i.wf s.cfg = true) (h : exec i s = .next t) : t.result ≠ 2 := by
  obtain ⟨txs, recs, r, -, hresult, hissued⟩ := exec_next_issues hwf h
  rw [hresult, Ne, Result.code_eq_two_iff]
  exact hissued.ne_illegal

/-- Over the same old TRACE, a failed last record is one the command appended. -/
theorem exec_next_busError_iff {i : Instr} {s t : State} (hwf : i.wf s.cfg = true) (h : exec i s = .next t) :
    t.result = 1 ↔ ∃ recs last, t.trace = s.trace ++ recs ++ [last] ∧ last.outcome = .fail := by
  obtain ⟨txs, recs, r, htrace, hresult, hissued⟩ := exec_next_issues hwf h
  simp only [hresult, Result.code_eq_one_iff, hissued.busError_iff, htrace, List.append_assoc, List.append_cancel_left_eq]

theorem execMap_next_result {s t : State} (h : exec .map s = .next t) : t.result = 0 := by
  obtain ⟨u, -, rfl⟩ := execMap_next h
  exact State.result_setResult u .ok

/-! ## The first unwritten payload cell (spec 60 R102) -/

theorem execWblk_faults {reg len : Byte} {s : State} {i : Nat} (hmax : len.toNat ≤ s.cfg.bufferSize) (h1 : 1 ≤ i) (hi : i ≤ len.toNat)
    (hnone : s.pbuf.read i = none) (hbefore : ∀ k, 1 ≤ k → k < i → (s.pbuf.read k).isSome) :
    exec (.wblk reg len) s = .fault (.unwritten .pbuf i) := by
  rw [exec_wblk_of_legalLength (legalLength_iff.2 ⟨h1.trans hi, hmax⟩)]
  exact blockWrite_unwritten (readAll_payload_error h1 hi hnone hbefore)

/-! ## OOB is sticky (spec 60 R97) -/

/-- MAP and DRAW set OOB or keep it; every other command keeps it. -/
theorem exec_keeps_oob_set {i : Instr} {s t : State} (h : exec i s = .next t) (hoob : s.oob = true) : t.oob = true := by
  have hmapping (hmap : exec .map s = .next t ∨ exec .draw s = .next t) : t.oob = true := by
    rw [oob_of_mapping hmap, hoob, Bool.true_or]
  cases i with
  | wreg reg val => exact (execWreg_next h).right.trans hoob
  | wblk reg len => exact (execWblk_next h).right.trans hoob
  | map => exact hmapping (.inl h)
  | draw => exact hmapping (.inr h)
  | init => exact (execInit_next h).right.trans hoob

theorem writeCmd_keeps_oob_set {w : Word} {s t : State} (h : writeCmd w s = .next t) (hoob : s.oob = true) : t.oob = true := by
  obtain ⟨i, -, hexec⟩ | ⟨-, rfl⟩ := writeCmd_next_cases h
  · exact exec_keeps_oob_set hexec hoob
  · rwa [State.oob_setResult]

/-- The only aligned place of STATUS is its offset. -/
theorem eq_statusOffset_of_region {c : Config} {off : Offset} (h : region c off = .status 0) : off = statusOffset := by
  obtain ⟨hoff, -⟩ := region_status_iff.1 h
  exact BitVec.eq_of_toNat_eq hoff

theorem EventEffect.keeps_oob_set {e : HostEvent} {s t : State} (h : EventEffect e s t) (hreset : e ≠ .reset)
    (hclear : ∀ v : Word, e = .st32 statusOffset v → v.getLsbD 8 = false) (hoob : s.oob = true) : t.oob = true := by
  cases h with
  | command _ _ _ _ _ ht => exact writeCmd_keeps_oob_set ht hoob
  | writeStatus off w _ hoff =>
    obtain rfl := eq_statusOffset_of_region hoff
    rw [State.oob_writeStatus, hoob, hclear w rfl, Bool.not_false, Bool.and_true]
  | reset => exact absurd rfl hreset
  | _ => exact hoob

/-! ## A step with nothing to do (spec 60 R114) -/

theorem step_of_idle {s : State} (hv : s.cfg.valid = true) (hin : s.hostIn = []) : step s = .next s := by
  simp [step, turn, hv, hin]

end Sys2Proof.Machine
end

section
/-! Proofs of the statements of spec 60 (exceptions). -/

namespace Sys2Proof.Proofs

open Sys2Proof.Machine Sys2Proof.Claims

/-- Settles O51: of the events that are no reset only a STATUS write can clear OOB, and it does so by bit 8 alone. -/
theorem oobIsSticky : Obligations.OobIsSticky := by
  intro s t hoob h hreset hclear
  obtain rfl | ⟨e, rest, hhead, hne, he⟩ := step_next_of_not_reset h hreset
  · exact hoob
  · refine he.keeps_oob_set hne (fun v hv => ?_) hoob
    exact Bool.eq_false_of_not_eq_true fun h8 => hclear ⟨v, hhead.trans (congrArg some hv), h8⟩

/-- Settles O14: an illegal word writes RESULT and no more, and a legal command ends with OK or BUS_ERROR. -/
theorem onlyIllegalWordsRaiseIllegal : Obligations.OnlyIllegalWordsRaiseIllegal := by
  refine ⟨fun s w => (illegalWordsChangeResultOnly s w).right, fun s t w hlegal h => ?_⟩
  obtain ⟨i, hdec, hexec⟩ | ⟨hillegal, -⟩ := writeCmd_next_cases h
  · exact exec_next_result_ne_illegal (encode_of_decode hdec).right hexec
  · exact absurd hillegal hlegal

/-- Settles O27: the slot loop and the payload check run in ascending order, and before the bus is asked. -/
theorem modelFaultsComeBeforeAnyTransaction : Obligations.ModelFaultsComeBeforeAnyTransaction :=
  ⟨fun _ _ _ hfirst => ⟨execMap_faults hfirst, execDraw_faults hfirst⟩, fun _ _ _ _ => execWblk_faults⟩

/-- Settles O39: a legal command by its issued records; an illegal word ends with ILLEGAL and appends none. -/
theorem busErrorComesOnlyFromAFailedTransaction : Obligations.BusErrorComesOnlyFromAFailedTransaction := by
  refine fun s t w h => ⟨?exactly, fun hdec => ?map, fun hillegal => ?illegal⟩
  case exactly =>
    obtain ⟨i, hdec, hexec⟩ | ⟨-, rfl⟩ := writeCmd_next_cases h
    · exact exec_next_busError_iff (encode_of_decode hdec).right hexec
    · rw [State.result_setResult, Result.code_eq_one_iff]
      exact iff_of_false Result.noConfusion (by simp)
  case map =>
    rw [writeCmd_of_decode hdec] at h
    rw [execMap_next_result h]
    decide
  case illegal =>
    rw [writeCmd_illegal hillegal] at h
    cases h
    rw [State.result_setResult, Ne, Result.code_eq_one_iff]
    exact Result.noConfusion

/-- Settles O4: with an empty queue a turn takes no event. -/
theorem idleKeepsAllState : Obligations.IdleKeepsAllState := fun _ => step_of_idle

/-- Settles O13: the step takes the access off the queue and raises ILLEGAL. -/
theorem stepOfAnIllegalWordReportsIllegal : Obligations.StepOfAnIllegalWordReportsIllegal := by
  intro s w rest hv hin hillegal
  have hstep : step s = raiseIllegal { s with hostIn := rest } := (step_writeCmd hv hin).trans (writeCmd_illegal hillegal)
  exact ⟨_, hstep, State.result_setResult _ .illegal, State.oob_setResult _ .illegal, rfl, rfl, rfl, rfl, rfl, rfl, rfl, rfl⟩

end Sys2Proof.Proofs
end

section
/-! Facts about reset and its event (spec 70): the layer the statements of spec 70 are settled from. -/

namespace Sys2Proof.Machine

/-! ## The reset values (spec 10 R34, 70 R115) -/

/-- The values of R34 come from PAM's own four fields alone, so the reset state and the state after a reset event share them. -/
theorem State.resetValues_of_cleared {s : State} (hlbuf : s.lbuf = []) (hpbuf : s.pbuf = []) (hstatus : s.status = 0) (htrace : s.trace = []) :
    (∀ i, s.lbuf.read i = none ∧ s.pbuf.read i = none) ∧ s.result = 0 ∧ s.oob = false ∧ s.statusWord = 0 ∧ s.trace = [] ∧
      s.page = none := by
  refine ⟨fun i => ?cells, ?result, ?oob, ?word, htrace, ?page⟩
  case cells => rw [hlbuf, hpbuf]; exact ⟨Memory.read_nil i, Memory.read_nil i⟩
  case result => rw [State.result, hstatus]; decide
  case oob => rw [State.oob, hstatus]; decide
  case word => rw [State.statusWord, hstatus]; decide
  case page => rw [State.page, htrace]; rfl

/-! ## The reset event (spec 70 R115 to R117) -/

theorem step_reset {s : State} {rest : List HostEvent} (hv : s.cfg.valid = true) (hin : s.hostIn = .reset :: rest) :
    step s = .next (State.resetBlock { s with hostIn := rest }) := step_of_event hv hin

end Sys2Proof.Machine
end

section
/-! Proofs of the statements of spec 70 (reset and hazards). -/

namespace Sys2Proof.Proofs

open Sys2Proof.Machine Sys2Proof.Claims

/-- Settles O45: a command that completes keeps the host's side, so the STATUS read comes next, and it answers RESULT in bits 1:0. -/
theorem statusReadSeesTheCommandsResult : Obligations.StatusReadSeesTheCommandsResult := by
  intro s t w rest hin h
  obtain ⟨hv, -⟩ := step_next_cases h
  have heff : CommandEffect { s with hostIn := .ld32 statusOffset :: rest } t :=
    writeCmd_next_effect ((step_writeCmd hv hin).symm.trans h)
  have hvt : t.cfg.valid = true := (congrArg Config.valid heff.cfg).trans hv
  have hout : t.hostOut = s.hostOut := heff.hostOut
  exact ⟨_, t.statusWord, step_readStatus hvt heff.hostIn, congrArg (· ++ [_]) hout, t.statusWord_result, rfl⟩

/-- Settles O1: the reset state is cleared, and with nothing of the outside to come it idles. -/
theorem resetLeavesTheSpecifiedState : Obligations.ResetLeavesTheSpecifiedState := by
  obtain ⟨hcells, hresult, hoob, hword, htrace, hpage⟩ := State.resetValues_of_cleared (s := State.reset) rfl rfl rfl rfl
  exact ⟨hcells, hresult, hoob, hword, htrace, hpage, step_of_idle config_reference_valid rfl⟩

/-- Settles O2: the event clears PAM's own state and takes itself off the queue; the rest of the outside is as before. -/
theorem resetEventGivesTheResetValues : Obligations.ResetEventGivesTheResetValues := by
  intro s rest hv hin
  obtain ⟨hcells, hresult, hoob, hword, htrace, hpage⟩ :=
    State.resetValues_of_cleared (s := State.resetBlock { s with hostIn := rest }) rfl rfl rfl rfl
  exact ⟨_, step_reset hv hin, hcells, hresult, hoob, hword, htrace, hpage, rfl, rfl, rfl, rfl, rfl, rfl⟩

end Sys2Proof.Proofs
end

section
/-! Proof of the statement about the spec's decode table (95 section 2.1). -/

namespace Sys2Proof.Proofs

/-- Settles O10: an accepted row is the word of its well-formed command, a row refused for its length the word of an ill-formed WBLK, and the
remaining rows fail on one field of the word alone. -/
theorem listedWordsDecodeAsTabulated : Obligations.ListedWordsDecodeAsTabulated := by
  refine ⟨?wreg, ?wregMax, ?wblk, ?wblkMax, ?map, ?draw, ?init, ?opcodeZero, ?wregLen, ?wblkTooLong, ?wblkEmpty, ?wblkVal, ?drawOperand,
    ?allOnes⟩
  case wreg | wregMax | wblk | wblkMax | map | draw | init => exact decode_eq_ok_iff.2 ⟨by decide, by decide⟩
  case wblkTooLong => exact decode_encode_of_not_wf (i := .wblk 0x00 145) (by decide)
  case wblkEmpty => exact decode_encode_of_not_wf (i := .wblk 0x00 0) (by decide)
  case opcodeZero | allOnes => rfl
  case wregLen | wblkVal | drawOperand => rfl

end Sys2Proof.Proofs
end
